-- ==== Sys2Proof/Word.lean ====
section
/-! DEFINITION. The word types of TILE2BPP: the widths spec/00_scope.md R7 fixes (CELL_BITS, GEOM_BITS, CMD_BITS) and the
23 value bits of SLEN (spec/10_state.md R24). -/

namespace Sys2Proof

/-- One pixel cell (CELL_BITS = 8, spec/10_state.md R31) or one stream byte (R32). -/
abbrev Byte := BitVec 8

/-- A command word, or a register as the host sees it (CMD_BITS = 32, spec/00_scope.md R7). -/
abbrev Word := BitVec 32

/-- DOC_W, DOC_H and the operands of RESIZE (GEOM_BITS = 12, spec/00_scope.md R7). -/
abbrev Geom := BitVec 12

/-- SLEN: 23 bits of value (spec/10_state.md R24, R30). -/
abbrev Length := BitVec 23

end Sys2Proof
end

