-- ==== Sys2Proof/Syntax.lean ====
section
/-! DEFINITION. The five commands, one constructor per row of spec/opcode_table.json, operands as the fields of
spec/30_encoding.md R81 to R83. -/

namespace Sys2Proof

/-- A command (spec/30_encoding.md R85). The operand fields are unsigned numbers at their own width, neither scaled nor shifted
(R84). -/
inductive Instr where
  /-- ENCODE, format N (spec/41_tile_codec.md R123). -/
  | encode
  /-- DECODE mode, tx, ty, format T (spec/41_tile_codec.md R125); `mode` is the tag as it stands in the word. -/
  | decode (mode tx ty : Byte)
  /-- WRITE, format N (spec/42_framer.md R141). -/
  | write
  /-- READ, format N (spec/42_framer.md R143). -/
  | read
  /-- RESIZE neww, newh, format R (spec/43_resizer.md R162). -/
  | resize (neww newh : Geom)
deriving DecidableEq, Repr

end Sys2Proof
end

