-- ==== Sys2Proof/WellFormed.lean ====
section
/-! DEFINITION. Which terms of Instr are commands of the spec: the operand-value check that the masks of the opcode map cannot
express (spec/30_encoding.md R82, R86 (c), R95). -/

namespace Sys2Proof

/-- A DECODE's mode tag is 8 or 16; every other operand field may hold any value (spec/30_encoding.md R82, R83). -/
abbrev Instr.WellFormed : Instr → Prop
  | .encode => True
  | .decode mode _ _ => mode = 8 ∨ mode = 16
  | .write => True
  | .read => True
  | .resize _ _ => True

end Sys2Proof
end

