-- ==== Sys2Proof/Decode.lean ====
section
/-! DEFINITION. The decoder of command words, total on all 2^32 words and rejecting by name (spec/30_encoding.md R80 to R86),
and after it the encoder, the assembly of R90. -/

namespace Sys2Proof

/-- Why a word is ILLEGAL: the three cases of spec/30_encoding.md R86. -/
inductive IllegalWord where
  /-- (a) `op` is 0x00 or 0x06 to 0xFF. -/
  | reservedOpcode
  /-- (b) format N with bits [31:8] not all zero. -/
  | reservedBits
  /-- (c) DECODE with a mode field other than 8 or 16. -/
  | reservedMode
deriving DecidableEq, Repr

/-! The operand fields, spec/30_encoding.md R84. -/

/-- `op = w[7:0]`. -/
def opField (w : Word) : Byte := w.extractLsb' 0 8
/-- `mode = w[15:8]`. -/
def modeField (w : Word) : Byte := w.extractLsb' 8 8
/-- `tx = w[23:16]`. -/
def txField (w : Word) : Byte := w.extractLsb' 16 8
/-- `ty = w[31:24]`. -/
def tyField (w : Word) : Byte := w.extractLsb' 24 8
/-- `neww = w[19:8]`. -/
def newwField (w : Word) : Geom := w.extractLsb' 8 12
/-- `newh = w[31:20]`. -/
def newhField (w : Word) : Geom := w.extractLsb' 20 12
/-- The reserved bits [31:8] of format N (R81). -/
def reservedField (w : Word) : BitVec 24 := w.extractLsb' 8 24

/-- Format N: no operand, reserved bits must be 0 (spec/30_encoding.md R81). -/
def decodeFormatN (w : Word) (i : Instr) : Except IllegalWord Instr :=
  if reservedField w = 0 then .ok i else .error .reservedBits

/-- Format T: the mode tag is 8 or 16, else the word is ILLEGAL (spec/30_encoding.md R82). -/
def decodeFormatT (w : Word) : Except IllegalWord Instr :=
  if modeField w = 8 ∨ modeField w = 16 then .ok (.decode (modeField w) (txField w) (tyField w))
  else .error .reservedMode

/-- Format R: no bit is reserved (spec/30_encoding.md R83). -/
def decodeFormatR (w : Word) : Except IllegalWord Instr := .ok (.resize (newwField w) (newhField w))

/-- The decoder: look `op` up in the opcode map (spec/30_encoding.md R85), then read the word in the format the map gives
(R80). -/
def decodeWord (w : Word) : Except IllegalWord Instr :=
  if opField w = 0x01 then decodeFormatN w .encode
  else if opField w = 0x02 then decodeFormatT w
  else if opField w = 0x03 then decodeFormatN w .write
  else if opField w = 0x04 then decodeFormatN w .read
  else if opField w = 0x05 then decodeFormatR w
  else .error .reservedOpcode

/-- The decoder on a word given as the opcode table numbers its bits: a command is one 32-bit word (spec/30_encoding.md R80,
R89), and the bits the table leaves out (none, here) are 0. -/
def decodeTableWord (nbits w : Nat) : Option Instr :=
  match decodeWord (BitVec.ofNat 32 (w % 2 ^ nbits)) with
  | .ok i => some i
  | .error _ => none

/-- Assembly (spec/30_encoding.md R90): `DECODE m, tx, ty` = 0x02 | m<<8 | tx<<16 | ty<<24, `RESIZE w, h` = 0x05 | w<<8 | h<<20.
An ill-formed tag assembles too, to an ILLEGAL word. -/
def encodeWord : Instr → Word
  | .encode => 0x00000001
  | .decode mode tx ty => 0x02 ||| mode.setWidth 32 <<< 8 ||| tx.setWidth 32 <<< 16 ||| ty.setWidth 32 <<< 24
  | .write => 0x00000003
  | .read => 0x00000004
  | .resize neww newh => 0x05 ||| neww.setWidth 32 <<< 8 ||| newh.setWidth 32 <<< 20

end Sys2Proof
end

