-- ==== Sys2Proof/Config.lean ====
section
/-! DEFINITION. What an implementation fixes and the spec leaves open: constants with no body, so that nothing proved about
the machine can rest on a value of them. -/

namespace Sys2Proof

/-- MAGIC = (M0, M1, M2, M3), the open parameter of spec/00_scope.md R7 and spec/70_reset_and_hazards.md R223: "all rules hold
for every value of it". Safe; log entry 1. -/
opaque Config.magic : Fin 4 → Byte

/-- What a byte of STRM holds before anything has written it since the latest reset: spec/10_state.md R37, "each byte may hold
any value, fixed at reset". The first argument counts the resets performed, the second is the byte's index. FREE VALUE,
safe; log entry 2. -/
opaque Config.strmAtReset : Nat → Nat → Byte

/-- The 32-bit data of the `SETLEN n` of a LOAD line of n bytes when n does not fit 32 bits: spec/30_encoding.md R91 writes n, and
spec/44_host_access.md R170 gives REG data 32 bits, so the spec states no value. DESIGN CHOICE: a FREE VALUE, safe; log entry 13. -/
opaque Config.loadLength : Nat → Word

end Sys2Proof
end

