-- ==== Sys2Proof/Machine/State.lean ====
section
/-! DEFINITION. The machine's state as plain data (spec/10_state.md R23), the reasons a step could stop, and the state after
reset (R37). -/

namespace Sys2Proof.Machine

/-- The active tile mode: "an enumerated value with two variants" (spec/00_scope.md R12, spec/10_state.md R29). -/
inductive TileMode where
  | rows8
  | rows16
deriving DecidableEq, Repr

/-- The outcome of a command, the values of STATUS.CODE (spec/10_state.md R26; their numbers are Flags.lean's `codeValue`). -/
inductive Code where
  | ok
  | unrecognized
  | truncated
  | geometry
  | unrepresentable
  | illegal
deriving DecidableEq, Repr

/-- What the host can do (spec/44_host_access.md R170): the two kinds of transaction in the three spaces, an address being a
natural number (log entry 4), and the RESET input (spec/70_reset_and_hazards.md R220), which is no transaction. -/
inductive HostAction where
  /-- `RD REG:n` (R171). -/
  | rdReg (n : Nat)
  /-- `WR REG:n, v` (R172; for n = 0 the command issue of R173). -/
  | wrReg (n : Nat) (v : Word)
  /-- `RD PIX:k` (R174). -/
  | rdPix (k : Nat)
  /-- `WR PIX:k, v` (R175). -/
  | wrPix (k : Nat) (v : Byte)
  /-- `RD STRM:k` (R176). -/
  | rdStrm (k : Nat)
  /-- `WR STRM:k, v` (R177). -/
  | wrStrm (k : Nat) (v : Byte)
  /-- The reset step (spec/70_reset_and_hazards.md R220). -/
  | reset
deriving DecidableEq, Repr

/-- What a RD transaction returns: 32 bits in REG, 8 in PIX and STRM (spec/44_host_access.md R170). -/
inductive Reply where
  | reg (v : Word)
  | pix (v : Byte)
  | strm (v : Byte)
deriving DecidableEq, Repr

/-- A memory in one canonical form: address and byte, addresses strictly rising, no entry equal to what an unlisted address
reads as (`Memory.wf` in Ops.lean). -/
abbrev Memory := List Host.Cell

/-- What an unlisted cell of PIX reads as: 0, the value of every cell after reset (spec/10_state.md R37) and of every cell a
RESIZE adds (spec/43_resizer.md R160). -/
abbrev pixUnlisted : Option Byte := some 0

/-- What an unlisted byte of STRM reads as: no written value. An entry of STRM's list is a byte written since the latest reset;
every other byte holds the unspecified value it had at that reset, `Config.strmAtReset` (spec/10_state.md R37; log entry 2). -/
abbrev strmUnlisted : Option Byte := none

/-- Why the machine stops. The type has no member: nothing stops this block. Every fault of the spec is "a defined outcome (a
next state with STATUS set)" (spec/60_exceptions.md R209), every transaction terminates (spec/44_host_access.md R182) and none
is refused (R170). -/
inductive Fault where
deriving DecidableEq, Repr

/-- Why a step has no meaning. -/
inductive Refusal where
  /-- The arm of an instruction that has no meaning yet; raised by no arm of this model. Safe. -/
  | notModelled (mnemonic : String)
deriving DecidableEq, Repr

/-- The state. The first seven fields are the complete architectural state of the block (spec/10_state.md R23; CMD holds no
value, R25); the last three are the model's own (log entries 2 and 3). -/
structure State where
  /-- PIX: the cells 0 .. DOC_W*DOC_H - 1, row-major (R31). -/
  pix : Memory
  /-- DOC_W (R27). -/
  docW : Geom
  /-- DOC_H (R28). -/
  docH : Geom
  /-- DOC_MODE (R29). -/
  docMode : TileMode
  /-- STRM: the bytes 0 .. 4194303 (R32). -/
  strm : Memory
  /-- SLEN (R30). -/
  slen : Length
  /-- STATUS, field CODE (R26). -/
  status : Byte
  /-- MODEL: what the host has still to perform, oldest first. -/
  pending : List HostAction
  /-- MODEL: what the host's reads have returned so far, oldest first. -/
  replies : List Reply
  /-- MODEL: how many RESETs have been performed; it picks the free values of STRM. -/
  resets : Nat
deriving DecidableEq, Repr

/-- The state after reset (spec/10_state.md R37): an 8 by 8 document of zeros in mode Rows8 (log entry 5), no stream, STATUS = OK,
STRM unspecified. The host has asked for nothing yet. -/
def State.reset : State where
  pix := []
  docW := 8
  docH := 8
  docMode := .rows8
  strm := []
  slen := 0
  status := 0
  pending := []
  replies := []
  resets := 0

end Sys2Proof.Machine
end

