-- ==== Sys2Proof/Machine/Flags.lean ====
section
/-! DEFINITION. The only flag or condition code, STATUS.CODE (spec/10_state.md R38): the number of each outcome (R26). -/

namespace Sys2Proof.Machine

/-- STATUS.CODE of an outcome (spec/10_state.md R26, spec/60_exceptions.md R190). -/
def codeValue : Code → Byte
  | .ok => 0
  | .unrecognized => 1
  | .truncated => 2
  | .geometry => 3
  | .unrepresentable => 4
  | .illegal => 5

end Sys2Proof.Machine
end

