-- ==== Sys2Proof/Machine/Ops.lean ====
section
/-! DEFINITION. The named operations over memory and registers, and the two ways a command ends (`done`, `raise`). -/

namespace Sys2Proof.Machine

/-! ## Memory as a sorted list of cells -/

/-- The canonical form: addresses strictly rising, no entry equal to what an unlisted address reads as. -/
abbrev Memory.wf (unlisted : Option Byte) (m : Memory) : Prop :=
  m.Pairwise (fun c d => c.1 < d.1) ∧ ∀ c ∈ m, some c.2 ≠ unlisted

/-- The entry at address `k`, if one is listed. -/
def Memory.cellAt : Memory → Nat → Option Byte
  | [], _ => none
  | (a, v) :: m, k => if a = k then some v else Memory.cellAt m k

/-- List the value `v` at address `k`. -/
def Memory.put : Memory → Nat → Byte → Memory
  | [], k, v => [(k, v)]
  | (a, u) :: m, k, v =>
    if k < a then (k, v) :: (a, u) :: m
    else if k = a then (k, v) :: m
    else (a, u) :: Memory.put m k v

/-- Unlist address `k`. -/
def Memory.unlist (m : Memory) (k : Nat) : Memory := m.filter (fun c => c.1 ≠ k)

/-- The memory whose addresses 0 .. n-1 hold `f` and whose other addresses are as in `m`. -/
def Memory.overwrite (m : Memory) (n : Nat) (f : Nat → Byte) : Memory :=
  (List.range n).map (fun k => (k, f k)) ++ m.filter (fun c => n ≤ c.1)

/-- The entry of a PIX cell, which a cell of value 0 does not need. -/
def nonzeroCell (k : Nat) (v : Byte) : Option Host.Cell := if v = 0 then none else some (k, v)

/-- A new memory of the `n` cells `f 0 .. f (n-1)`, cells of value 0 unlisted. -/
def Memory.tabulate (n : Nat) (f : Nat → Byte) : Memory := (List.range n).filterMap fun k => nonzeroCell k (f k)

/-- A new memory, otherwise zero, that holds each cell of `m` that `g` gives a place, at that place. -/
def Memory.relocate (m : Memory) (g : Nat → Option Nat) : Memory :=
  m.filterMap fun c => (g c.1).map fun a => (a, c.2)

/-! ## Writing one item of the state -/

/-- `x[STATUS] <- v`. -/
def State.setStatus (s : State) (v : Byte) : State := { s with status := v }
/-- `x[DOC_MODE] <- m`. -/
def State.setMode (s : State) (m : TileMode) : State := { s with docMode := m }
/-- `x[SLEN] <- n`. -/
def State.setSlen (s : State) (n : Length) : State := { s with slen := n }
/-- The contents of PIX, the geometry unchanged. -/
def State.setPix (s : State) (m : Memory) : State := { s with pix := m }
/-- The contents of STRM. -/
def State.setStrm (s : State) (m : Memory) : State := { s with strm := m }
/-- `PIX <- m; x[DOC_W] <- w; x[DOC_H] <- h`: the buffer is replaced wholesale, together with its geometry (spec/10_state.md R31). -/
def State.setBuffer (s : State) (m : Memory) (w h : Geom) : State := { s with pix := m, docW := w, docH := h }
/-- What the host has still to perform. -/
def State.setPending (s : State) (l : List HostAction) : State := { s with pending := l }
/-- A RD transaction returned `r`. -/
def State.addReply (s : State) (r : Reply) : State := { s with replies := s.replies ++ [r] }
/-- Every register and memory of the block at its reset value (spec/10_state.md R37, spec/70_reset_and_hazards.md R220), STRM
with the free values of the next reset; the host's own lists are not the block's. -/
def State.afterReset (s : State) : State :=
  { State.reset with pending := s.pending, replies := s.replies, resets := s.resets + 1 }

/-! ## Reading and writing one unit of PIX and STRM -/

/-- `MemRead(PIX:k, 1)`, for a cell that exists (spec/00_scope.md R11). -/
def pixCell (s : State) (k : Nat) : Byte := (s.pix.cellAt k).getD 0

/-- `MemWrite(PIX:k, 1, v)`: all 8 bits are stored (spec/44_host_access.md R175). -/
def storePix (s : State) (k : Nat) (v : Byte) : State :=
  s.setPix (if v = 0 then s.pix.unlist k else s.pix.put k v)

/-- `MemRead(STRM:k, 1)`: the byte written last since the latest reset, or the unspecified value it had at that reset
(spec/10_state.md R32, R37). -/
def strmByte (s : State) (k : Nat) : Byte := (s.strm.cellAt k).getD (Config.strmAtReset s.resets k)

/-- `MemWrite(STRM:k, 1, v)`. -/
def storeStrm (s : State) (k : Nat) (v : Byte) : State := s.setStrm (s.strm.put k v)

/-- A command's result as the stream: `f 0 .. f (n-1)` into STRM from offset 0, `x[SLEN] <- n`, the bytes at and beyond `n` kept
(spec/10_state.md R32, spec/41_tile_codec.md R123, spec/42_framer.md R141). -/
def storeStream (s : State) (n : Nat) (f : Nat → Byte) : State :=
  (s.setStrm (s.strm.overwrite n f)).setSlen (BitVec.ofNat 23 n)

/-! ## How a command ends

Taking a fault is `raise`, the one shared operation of every command; there is no return from it and nothing to restore
(spec/60_exceptions.md R200). -/

/-- What a meaning answers. -/
abbrev Result := Host.Outcome State Fault Refusal

/-- `raise F` (spec/60_exceptions.md R196): nothing changes but `x[STATUS] <- code(F)`, and the command is over. -/
def raise (f : Code) (s : State) : Result := .next (s.setStatus (codeValue f))

/-- `done` (spec/00_scope.md R11): the listed writes have taken effect and `x[STATUS] <- 0`. -/
def done (s : State) : Result := .next (s.setStatus (codeValue .ok))

end Sys2Proof.Machine
end

