-- ==== Sys2Proof/Machine/Operands.lean ====
section
/-! DEFINITION. Parameters, operand forms and index formulas: row counts and tags (spec/00_scope.md R7, R11), the two ways a mode
byte is read, valid geometries (spec/10_state.md R33), packed lengths, TileOff and PixIdx (spec/20_memory.md R57, R61) and the
header (spec/42_framer.md R140). -/

namespace Sys2Proof.Machine

/-- STRM_CAP = 2^22 (spec/00_scope.md R7). -/
abbrev strmCap : Nat := 4194304

/-- VERSION, the format version byte at offset 4 (spec/00_scope.md R7). -/
def versionByte : Byte := 1

/-- HDR_LEN, bytes of header before the tile data (spec/00_scope.md R7). -/
abbrev hdrLen : Nat := 8

/-- TCMAX, the largest tile count a header byte can carry (spec/00_scope.md R7). -/
abbrev tcMax : Nat := 255

/-- RC(m) (spec/00_scope.md R11). -/
def rowCount : TileMode → Nat
  | .rows8 => 8
  | .rows16 => 16

/-- tag(m) (spec/00_scope.md R11). -/
def tag : TileMode → Byte
  | .rows8 => 8
  | .rows16 => 16

/-- A mode tag in a command word: strict (spec/41_tile_codec.md R125). -/
def modeOfTag (v : Byte) : Option TileMode :=
  if v = 8 then some .rows8 else if v = 16 then some .rows16 else none

/-- The mode byte of a file: lenient, every byte but 16 selects Rows8 (spec/42_framer.md R146). -/
def modeOfHeader (v : Byte) : TileMode := if v = 16 then .rows16 else .rows8

/-- (w, h) is valid for mode m (spec/10_state.md R33). -/
abbrev ValidGeometry (m : TileMode) (w h : Nat) : Prop :=
  0 < w ∧ w % 8 = 0 ∧ 0 < h ∧ h % rowCount m = 0

/-- The document is well-formed (spec/10_state.md R33). -/
abbrev DocWellFormed (s : State) : Prop := ValidGeometry s.docMode s.docW.toNat s.docH.toNat

/-- N, the packed length of a geometry of tx by ty tiles (spec/20_memory.md R51, R57). -/
def packedLength (m : TileMode) (tx ty : Nat) : Nat := tx * ty * rowCount m * 2

/-- TileOff(tyi, txi, r, p), for TX = tx and RC = rc (spec/20_memory.md R57). -/
def tileOff (tx rc tyi txi r p : Nat) : Nat := ((tyi * tx + txi) * rc + r) * 2 + p

/-- PixIdx(w, RC, tyi, txi, r, i) (spec/20_memory.md R61). -/
def pixIdx (w rc tyi txi r i : Nat) : Nat := (tyi * rc + r) * w + txi * 8 + i

/-- HeaderFn(m, tx, ty) (spec/42_framer.md R140). -/
def header (m : TileMode) (tx ty : Nat) : List Byte :=
  [Config.magic 0, Config.magic 1, Config.magic 2, Config.magic 3, versionByte, tag m, BitVec.ofNat 8 tx, BitVec.ofNat 8 ty]

end Sys2Proof.Machine
end

