-- ==== Sys2Proof/Machine/RowPack.lean ====
section
/-! DEFINITION. The 2bpp planar row packer and unpacker (spec/40_rowpack.md R110, R111), by the formulas of those rules (R114). -/

namespace Sys2Proof.Machine

/-- PACKROW(p 0, ..., p 7) = (lo, hi) (spec/40_rowpack.md R110). -/
def packRow (p : Nat → Byte) : Byte × Byte :=
  ((List.range 8).foldl (fun lo i => lo ||| (p i &&& 1) <<< (7 - i)) 0,
   (List.range 8).foldl (fun hi i => hi ||| ((p i >>> 1) &&& 1) <<< (7 - i)) 0)

/-- Cell i of UNPACKROW(lo, hi), for i = 0 to 7 (spec/40_rowpack.md R111). -/
def unpackRow (lo hi : Byte) (i : Nat) : Byte :=
  ((lo >>> (7 - i)) &&& 1) ||| ((hi >>> (7 - i)) &&& 1) <<< 1

end Sys2Proof.Machine
end

