-- ==== Sys2Proof/Machine/Codec.lean ====
section
/-! DEFINITION. The pixel-to-tile and tile-to-pixel converters (spec/41_tile_codec.md): EncodeFn, DecodeFn and the commands
ENCODE, DECODE. Each output position is a function of the loop indices alone (R120), so it is computed from its own index. -/

namespace Sys2Proof.Machine

/-- Byte k of EncodeFn(P, w, h, m), rc = RC(m) (spec/41_tile_codec.md R121): k = TileOff(tyi, txi, r, p) is plane p of the PACKROW of
the eight cells at PixIdx(w, rc, tyi, txi, r, 0..7). -/
def encodeByte (P : Nat → Byte) (w rc k : Nat) : Byte :=
  let r := k / 2 % rc
  let txi := k / 2 / rc % (w / 8)
  let tyi := k / 2 / rc / (w / 8)
  let row := packRow fun i => P (pixIdx w rc tyi txi r i)
  if k % 2 = 0 then row.1 else row.2

/-- Cell k of DecodeFn(B, tx, ty, m), rc = RC(m) (spec/41_tile_codec.md R122): k = PixIdx(tx*8, rc, tyi, txi, r, i) is cell i of the
UNPACKROW of the two bytes at TileOff(tyi, txi, r, 0..1). -/
def decodeCell (B : Nat → Byte) (tx rc k : Nat) : Byte :=
  let y := k / (tx * 8)
  let x := k % (tx * 8)
  let o := tileOff tx rc (y / rc) (x / 8) (y % rc) 0
  unpackRow (B o) (B (o + 1)) (x % 8)

/-- The document unpacked from the packed stream that starts at STRM offset `base`: PIX, DOC_W, DOC_H and DOC_MODE as DECODE (base
0, spec/41_tile_codec.md R125) and READ (base 8, spec/42_framer.md R143, R148) write them. -/
def loadDocument (s : State) (m : TileMode) (tx ty base : Nat) : State :=
  let cells := Memory.tabulate (tx * 8 * (ty * rowCount m)) (decodeCell (fun o => strmByte s (base + o)) tx (rowCount m))
  (s.setBuffer cells (BitVec.ofNat 12 (tx * 8)) (BitVec.ofNat 12 (ty * rowCount m))).setMode m

/-- ENCODE (spec/41_tile_codec.md R123). -/
def execEncode (s : State) : Result :=
  let w := s.docW.toNat
  let h := s.docH.toNat
  if ¬ DocWellFormed s then raise .geometry s
  else done (storeStream s (w * h / 4) (encodeByte (pixCell s) w (rowCount s.docMode)))

/-- DECODE mode, tx, ty (spec/41_tile_codec.md R125). -/
def execDecode (mode tx ty : Byte) (s : State) : Result :=
  match modeOfTag mode with
  | none => raise .illegal s
  | some m =>
    if tx = 0 ∨ ty = 0 then raise .geometry s
    else if s.slen.toNat ≠ packedLength m tx.toNat ty.toNat then raise .geometry s
    else done (loadDocument s m tx.toNat ty.toNat 0)

end Sys2Proof.Machine
end

