-- ==== Sys2Proof/Machine/Framer.lean ====
section
/-! DEFINITION. The bitstream framer with header (spec/42_framer.md): the commands WRITE and READ. -/

namespace Sys2Proof.Machine

/-- Byte k of the persisted file of the document: the header, then immediately the packed tiles (spec/20_memory.md R56,
spec/42_framer.md R141). -/
def fileByte (s : State) (k : Nat) : Byte :=
  let w := s.docW.toNat
  let rc := rowCount s.docMode
  if k < hdrLen then (header s.docMode (w / 8) (s.docH.toNat / rc)).getD k 0
  else encodeByte (pixCell s) w rc (k - hdrLen)

/-- WRITE (spec/42_framer.md R141, R142). -/
def execWrite (s : State) : Result :=
  let w := s.docW.toNat
  let h := s.docH.toNat
  if ¬ DocWellFormed s then raise .geometry s
  else if w / 8 > tcMax ∨ h / rowCount s.docMode > tcMax then raise .unrepresentable s
  else done (storeStream s (hdrLen + w * h / 4) (fileByte s))

/-- The first four bytes of the stream are MAGIC, compared byte by byte (spec/42_framer.md R145, spec/20_memory.md R52). -/
abbrev MagicMatches (s : State) : Prop :=
  strmByte s 0 = Config.magic 0 ∧ strmByte s 1 = Config.magic 1 ∧ strmByte s 2 = Config.magic 2 ∧ strmByte s 3 = Config.magic 3

/-- READ (spec/42_framer.md R143): the checks in the order of that rule (R144 to R147), then the load (R148, R149). -/
def execRead (s : State) : Result :=
  let m := modeOfHeader (strmByte s 5)
  let tx := (strmByte s 6).toNat
  let ty := (strmByte s 7).toNat
  if s.slen.toNat < hdrLen then raise .truncated s
  else if ¬ MagicMatches s then raise .unrecognized s
  else if strmByte s 4 ≠ versionByte then raise .unrecognized s
  else if tx = 0 ∨ ty = 0 then raise .geometry s
  else if s.slen.toNat < hdrLen + packedLength m tx ty then raise .truncated s
  else done (loadDocument s m tx ty hdrLen)

end Sys2Proof.Machine
end

