-- ==== Sys2Proof/Machine/Resizer.lean ====
section
/-! DEFINITION. The canvas buffer resizer (spec/43_resizer.md): the command RESIZE. -/

namespace Sys2Proof.Machine

/-- Where ResizeFn copies cell k = r*ow + c of the old buffer to: r*nw + c in the overlap region r < min(oh, nh), c < min(ow, nw),
nowhere outside it (spec/43_resizer.md R160). -/
def resizePlace (ow oh nw nh k : Nat) : Option Nat :=
  if k / ow < min oh nh ∧ k % ow < min ow nw then some (k / ow * nw + k % ow) else none

/-- RESIZE neww, newh (spec/43_resizer.md R162): a new zero-filled buffer that keeps the overlap, all 8 bits of each cell (R164);
both geometries are checked against the current mode, the old one first (R161). -/
def execResize (neww newh : Geom) (s : State) : Result :=
  if ¬ DocWellFormed s then raise .geometry s
  else if ¬ ValidGeometry s.docMode neww.toNat newh.toNat then raise .geometry s
  else done (s.setBuffer (s.pix.relocate (resizePlace s.docW.toNat s.docH.toNat neww.toNat newh.toNat)) neww newh)

end Sys2Proof.Machine
end

