-- ==== Sys2Proof/Machine/Dispatch.lean ====
section
/-! DEFINITION. One arm per command: the direct call of its meaning. -/

namespace Sys2Proof.Machine
open Sys2Proof

def exec (i : Instr) (s : State) : Host.Outcome State Fault Refusal :=
  match i with
  | .encode => Sys2Proof.Machine.execEncode s
  | .decode mode tx ty => Sys2Proof.Machine.execDecode mode tx ty s
  | .write => Sys2Proof.Machine.execWrite s
  | .read => Sys2Proof.Machine.execRead s
  | .resize neww newh => Sys2Proof.Machine.execResize neww newh s

end Sys2Proof.Machine
end

