-- ==== Sys2Proof/Machine/HostAccess.lean ====
section
/-! DEFINITION. The host's register, pixel and stream accesses (spec/44_host_access.md R171, R172, R174 to R178). An access with no
meaning is ignored or returns 0 (R178). -/

namespace Sys2Proof.Machine

/-- `RD REG:n` (spec/44_host_access.md R171, spec/10_state.md R24). -/
def readReg (s : State) (n : Nat) : Word :=
  match n with
  | 1 => s.status.setWidth 32
  | 2 => s.docW.setWidth 32
  | 3 => s.docH.setWidth 32
  | 4 => (tag s.docMode).setWidth 32
  | 5 => s.slen.setWidth 32
  | _ => 0

/-- `WR REG:4, v` (spec/10_state.md R29): all 32 bits of v are compared. -/
def writeMode (s : State) (v : Word) : State :=
  if v = 8 then s.setMode .rows8 else if v = 16 then s.setMode .rows16 else s

/-- `WR REG:5, v` (spec/10_state.md R30). -/
def writeSlen (s : State) (v : Word) : State :=
  if v.toNat ≤ strmCap then s.setSlen (v.setWidth 23) else s

/-- `WR REG:n, v` for n ≠ 0 (spec/44_host_access.md R172). -/
def writeReg (s : State) (n : Nat) (v : Word) : State :=
  match n with
  | 4 => writeMode s v
  | 5 => writeSlen s v
  | _ => s

/-- How many cells PIX has (spec/10_state.md R31). -/
def pixCount (s : State) : Nat := s.docW.toNat * s.docH.toNat

/-- `RD PIX:k` (spec/44_host_access.md R174). -/
def readPix (s : State) (k : Nat) : Byte := if k < pixCount s then pixCell s k else 0

/-- `WR PIX:k, v` (spec/44_host_access.md R175). -/
def writePix (s : State) (k : Nat) (v : Byte) : State := if k < pixCount s then storePix s k v else s

/-- `RD STRM:k` (spec/44_host_access.md R176). -/
def readStrm (s : State) (k : Nat) : Byte := if k < strmCap then strmByte s k else 0

/-- `WR STRM:k, v` (spec/44_host_access.md R177). -/
def writeStrm (s : State) (k : Nat) (v : Byte) : State := if k < strmCap then storeStrm s k v else s

end Sys2Proof.Machine
end

