-- ==== Sys2Proof/Machine/Port.lean ====
section
/-! DEFINITION. The host port: command issue (spec/44_host_access.md R173) and the performing of one host action (R170, and the
reset step of spec/70_reset_and_hazards.md R220). -/

namespace Sys2Proof.Machine

/-- `WR REG:0, w` (spec/44_host_access.md R173): decode the word and execute the command, or raise ILLEGAL. -/
def issueCommand (s : State) (w : Word) : Result :=
  match decodeWord w with
  | .ok i => exec i s
  | .error _ => raise .illegal s

/-- One host action, from start to end (spec/20_memory.md R58). -/
def perform (s : State) : HostAction → Result
  | .rdReg n => .next (s.addReply (.reg (readReg s n)))
  | .wrReg n v => if n = 0 then issueCommand s v else .next (writeReg s n v)
  | .rdPix k => .next (s.addReply (.pix (readPix s k)))
  | .wrPix k v => .next (writePix s k v)
  | .rdStrm k => .next (s.addReply (.strm (readStrm s k)))
  | .wrStrm k v => .next (writeStrm s k v)
  | .reset => .next s.afterReset

/-- The host goes on to perform `l` after what it has still to perform: a program is "a finite list of the lines ... performed in
order by the host" (spec/30_encoding.md R93). -/
def State.thenPerform (s : State) (l : List HostAction) : State := s.setPending (s.pending ++ l)

end Sys2Proof.Machine
end

