-- ==== Sys2Proof/Machine/Step.lean ====
section
/-! DEFINITION. One step: the host performs the oldest action it has still to perform (spec/10_state.md R20: "one step relation
whose steps are host transactions ... plus the reset step"). The block fetches nothing (R22). Log entry 3. -/

namespace Sys2Proof.Machine

/-- One step. With nothing to perform the block waits, and nothing changes: "it never changes state on its own" (spec/10_state.md
R20, spec/44_host_access.md R182). -/
def step (s : State) : Host.Outcome State Fault Refusal :=
  match s.pending with
  | [] => .next s
  | a :: rest => perform (s.setPending rest) a

/-- The host's next action is the CMD write of the word w (spec/44_host_access.md R173), before all it had still to perform. -/
def State.withFetchWord (s : State) (nbits w : Nat) : State :=
  s.setPending (.wrReg 0 (BitVec.ofNat 32 (w % 2 ^ nbits)) :: s.pending)

end Sys2Proof.Machine
end

