-- ==== Sys2Proof/Machine/Listing.lean ====
section
/-! DEFINITION. The lines of a listing (spec/30_encoding.md R90, R91, R93): commands and host pseudo-instructions, each with the
host actions it stands for. -/

namespace Sys2Proof.Machine

/-- One line of a listing: a command (R90) or a pseudo-instruction (R91). -/
inductive Line where
  | command (i : Instr)
  | reset
  | setMode (m : Word)
  | setLen (n : Word)
  | poke (k : Nat) (v : Byte)
  | peek (k : Nat)
  | putB (k : Nat) (v : Byte)
  | getB (k : Nat)
  | load (bytes : List Byte)
  | stat
  | getW
  | getH
  | getMode
  | getLen
deriving DecidableEq, Repr

/-- The data of the `SETLEN n` that ends a LOAD line of n bytes: n where n fits the 32 bits of REG data (spec/30_encoding.md R91,
spec/44_host_access.md R170). For n ≥ 2^32 the spec states no value and the model leaves it free: DESIGN CHOICE, log entry 13. -/
def loadLengthData (n : Nat) : Word := if n < 2 ^ 32 then BitVec.ofNat 32 n else Config.loadLength n

/-- The expansion of a line (spec/30_encoding.md R90, R91; the length a LOAD line writes is `loadLengthData`, log entry 13). -/
def lineActions : Line → List HostAction
  | .command i => [.wrReg 0 (encodeWord i)]
  | .reset => [.reset]
  | .setMode m => [.wrReg 4 m]
  | .setLen n => [.wrReg 5 n]
  | .poke k v => [.wrPix k v]
  | .peek k => [.rdPix k]
  | .putB k v => [.wrStrm k v]
  | .getB k => [.rdStrm k]
  | .load bytes => bytes.zipIdx.map (fun b => .wrStrm b.2 b.1) ++ [.wrReg 5 (loadLengthData bytes.length)]
  | .stat => [.rdReg 1]
  | .getW => [.rdReg 2]
  | .getH => [.rdReg 3]
  | .getMode => [.rdReg 4]
  | .getLen => [.rdReg 5]

/-- A program's host actions: its lines in order (spec/30_encoding.md R93). -/
def listingActions (lines : List Line) : List HostAction := lines.flatMap lineActions

end Sys2Proof.Machine
end

