-- ==== Sys2Proof/Safety.lean ====
section
/-! DEFINITION. The terms claims are stated in: the invariants of every reachable state (spec/10_state.md R34), and what it means
that a step leaves a part of the state alone. -/

namespace Sys2Proof.Machine

/-- The invariants (a) to (e) of spec/10_state.md R34, and the canonical form of the two memories. -/
structure Inv (s : State) : Prop where
  /-- PIX is in canonical form. -/
  pix_wf : Memory.wf pixUnlisted s.pix
  /-- (a): no cell is listed beyond the DOC_W*DOC_H cells that exist. -/
  pix_exists : ∀ c ∈ s.pix, c.1 < pixCount s
  /-- STRM is in canonical form. -/
  strm_wf : Memory.wf strmUnlisted s.strm
  /-- No byte is listed beyond the STRM_CAP bytes that exist (R32). -/
  strm_exists : ∀ c ∈ s.strm, c.1 < strmCap
  /-- (b). -/
  docW_ok : 0 < s.docW.toNat ∧ s.docW.toNat % 8 = 0 ∧ s.docW.toNat ≤ 4088
  /-- (c). -/
  docH_ok : 0 < s.docH.toNat ∧ s.docH.toNat % 8 = 0 ∧ s.docH.toNat ≤ 4088
  /-- (d). -/
  slen_ok : s.slen.toNat ≤ strmCap
  /-- (e). -/
  status_ok : s.status.toNat ≤ 5

/-- Every cell, DOC_W, DOC_H and DOC_MODE are the same (the document, spec/10_state.md R23). -/
def SameDocument (s t : State) : Prop :=
  (∀ k, pixCell t k = pixCell s k) ∧ t.docW = s.docW ∧ t.docH = s.docH ∧ t.docMode = s.docMode

/-- Every byte of STRM, and SLEN, are the same. -/
def SameStream (s t : State) : Prop := (∀ k, strmByte t k = strmByte s k) ∧ t.slen = s.slen

/-- The model's own fields are the same: what the host has still to perform, what it was answered, the count of resets. -/
def SameHost (s t : State) : Prop := t.pending = s.pending ∧ t.replies = s.replies ∧ t.resets = s.resets

/-- PIX has no cell beyond the DOC_W*DOC_H that exist (spec/10_state.md R31). -/
def NoCellBeyond (s : State) : Prop := ∀ c ∈ s.pix, c.1 < pixCount s

/-- From STRM offset `base` on, `t` holds the packed tiles of the document of `s`: at TileOff of each pixel row of each tile stand the
two bytes of that row's PACKROW (spec/41_tile_codec.md R121, spec/20_memory.md R57, R61). -/
def HoldsPackedTiles (s t : State) (base : Nat) : Prop :=
  ∀ tyi txi r, tyi < s.docH.toNat / rowCount s.docMode → txi < s.docW.toNat / 8 → r < rowCount s.docMode →
    (strmByte t (base + tileOff (s.docW.toNat / 8) (rowCount s.docMode) tyi txi r 0),
     strmByte t (base + tileOff (s.docW.toNat / 8) (rowCount s.docMode) tyi txi r 1)) =
      packRow fun i => pixCell s (pixIdx s.docW.toNat (rowCount s.docMode) tyi txi r i)

/-- The document of `t` is the one DecodeFn gives for mode m and tx by ty tiles on the bytes of `s` from STRM offset `base` on: its
geometry and mode, each cell at PixIdx, and no other cell (spec/41_tile_codec.md R122, R125, spec/42_framer.md R148). -/
def HoldsUnpackedTiles (s t : State) (m : TileMode) (tx ty base : Nat) : Prop :=
  t.docW.toNat = tx * 8 ∧ t.docH.toNat = ty * rowCount m ∧ t.docMode = m ∧ NoCellBeyond t ∧
  ∀ tyi txi r i, tyi < ty → txi < tx → r < rowCount m → i < 8 →
    pixCell t (pixIdx (tx * 8) (rowCount m) tyi txi r i) =
      unpackRow (strmByte s (base + tileOff tx (rowCount m) tyi txi r 0)) (strmByte s (base + tileOff tx (rowCount m) tyi txi r 1)) i

/-- The first eight bytes of the stream are a header READ accepts: MAGIC, version 1, and tile counts that are not 0
(spec/42_framer.md R143, R145, R147). -/
abbrev HeaderAccepted (s : State) : Prop :=
  8 ≤ s.slen.toNat ∧ MagicMatches s ∧ strmByte s 4 = 1 ∧ strmByte s 6 ≠ 0 ∧ strmByte s 7 ≠ 0

/-- N for the header of the stream, tx and ty being its bytes 6 and 7 (spec/42_framer.md R147). -/
def headerPayload (s : State) : Nat :=
  packedLength (modeOfHeader (strmByte s 5)) (strmByte s 6).toNat (strmByte s 7).toNat

/-- The three cases in which a command word is ILLEGAL, on the number w (spec/30_encoding.md R86): (a) a reserved opcode, (b) format N
with reserved bits set, (c) a reserved mode tag. -/
abbrev IllegalCase (w : Word) : Prop :=
  (w.toNat % 256 = 0 ∨ 6 ≤ w.toNat % 256) ∨
  ((w.toNat % 256 = 1 ∨ w.toNat % 256 = 3 ∨ w.toNat % 256 = 4) ∧ w.toNat / 256 ≠ 0) ∨
  (w.toNat % 256 = 2 ∧ w.toNat / 256 % 256 ≠ 8 ∧ w.toNat / 256 % 256 ≠ 16)

end Sys2Proof.Machine
end

