-- ==== Sys2Proof/Certificates/Slice0/Obligations.lean ====
section
/-! DEFINITION. The statements for the provers. Each docstring names the rule of spec/ it formalises. -/

open Sys2Proof Sys2Proof.Machine

/-! ## Command words -/

/-- Assembly is the inverse of decoding: the word of a well-formed command decodes to that command, every operand at every value its
field admits (spec/30_encoding.md section 6). -/
def Obligations.DecodeInvertsEncode : Prop :=
  ∀ i : Instr, i.WellFormed → decodeWord (encodeWord i) = .ok i

/-- A word that decodes is the word of the command it decodes to, and that command is well-formed: no two words share a command
(spec/30_encoding.md sections 1 and 4). -/
def Obligations.DecodedWordIsItsEncoding : Prop :=
  ∀ (w : Word) (i : Instr), decodeWord w = .ok i → i.WellFormed ∧ encodeWord i = w

/-- A row (match, mask) of the opcode map selects w when w & mask = match; the DECODE row with the check of its mode tag
(spec/30_encoding.md R85, R95). -/
def Obligations.OpcodeMapSelectsByMaskAndMatch : Prop :=
  ∀ w : Word,
    (decodeWord w = .ok .encode ↔ w &&& 0xFFFFFFFF = 0x00000001) ∧
    ((∃ mode tx ty, decodeWord w = .ok (.decode mode tx ty)) ↔
      w &&& 0x000000FF = 0x00000002 ∧ (w >>> 8 &&& 0xFF = 8 ∨ w >>> 8 &&& 0xFF = 16)) ∧
    (decodeWord w = .ok .write ↔ w &&& 0xFFFFFFFF = 0x00000003) ∧
    (decodeWord w = .ok .read ↔ w &&& 0xFFFFFFFF = 0x00000004) ∧
    ((∃ neww newh, decodeWord w = .ok (.resize neww newh)) ↔ w &&& 0x000000FF = 0x00000005)

/-- The operand fields of a decoded DECODE and RESIZE are the bit slices of the word, unsigned and unscaled (spec/30_encoding.md
R84). -/
def Obligations.OperandFieldsAreBitSlices : Prop :=
  ∀ w : Word,
    (∀ mode tx ty, decodeWord w = .ok (.decode mode tx ty) →
      mode.toNat = w.toNat / 2 ^ 8 % 2 ^ 8 ∧ tx.toNat = w.toNat / 2 ^ 16 % 2 ^ 8 ∧ ty.toNat = w.toNat / 2 ^ 24) ∧
    (∀ neww newh, decodeWord w = .ok (.resize neww newh) →
      neww.toNat = w.toNat / 2 ^ 8 % 2 ^ 12 ∧ newh.toNat = w.toNat / 2 ^ 20)

/-- A CMD write of a word in one of the three ILLEGAL cases sets STATUS to 5 and does nothing else; every other word is a defined command
(spec/30_encoding.md R86; that the host's next write stands first in `pending` is the model's form of it, log entry 3). -/
def Obligations.IllegalWordsSetStatusFiveOthersDecode : Prop :=
  (∀ (s : State) (w : Word) (rest : List HostAction), s.pending = .wrReg 0 w :: rest → IllegalCase w →
    step s = .next ((s.setPending rest).setStatus 5)) ∧
  (∀ w : Word, ¬ IllegalCase w → ∃ i, decodeWord w = .ok i)

/-- All sixteen words of the table of worked encodings: twelve decode to the command and operands of their row, and four are ILLEGAL,
each in the case of its row (spec/30_encoding.md section 7, a table the spec derives). -/
def Obligations.WorkedEncodingsDecode : Prop :=
  decodeWord 0x00000001 = .ok .encode ∧ decodeWord 0x01010802 = .ok (.decode 8 1 1) ∧
  decodeWord 0x01021002 = .ok (.decode 16 2 1) ∧ decodeWord 0xFFFF1002 = .ok (.decode 16 255 255) ∧
  decodeWord 0x00000003 = .ok .write ∧ decodeWord 0x00000004 = .ok .read ∧
  decodeWord 0x00800805 = .ok (.resize 8 8) ∧ decodeWord 0x01001005 = .ok (.resize 16 16) ∧
  decodeWord 0x00801005 = .ok (.resize 16 8) ∧ decodeWord 0x01000805 = .ok (.resize 8 16) ∧
  decodeWord 0x00880005 = .ok (.resize 2048 8) ∧ decodeWord 0xFF8FF805 = .ok (.resize 4088 4088) ∧
  decodeWord 0x00000000 = .error .reservedOpcode ∧ decodeWord 0x00000101 = .error .reservedBits ∧
  decodeWord 0x01010702 = .error .reservedMode ∧ decodeWord 0x00000006 = .error .reservedOpcode

/-- Command issue: the step at a CMD write of a word that decodes to i is exec of i, and of a word that decodes to nothing is ILLEGAL;
nothing else is added around it but that the host has the write behind it, the block having no program counter to move
(spec/44_host_access.md R173; the list of the host's actions is the model's, log entry 3). -/
def Obligations.StepRunsTheDecodedCommand : Prop :=
  ∀ (s : State) (w : Word) (rest : List HostAction), s.pending = .wrReg 0 w :: rest →
    (∀ i, decodeWord w = .ok i → step s = exec i (s.setPending rest)) ∧
    (∀ e, decodeWord w = .error e → step s = .next ((s.setPending rest).setStatus 5))

/-! ## The row functions -/

/-- PACKROW: bit 7-i of lo is bit 0 of cell i and bit 7-i of hi is bit 1 of cell i, so bits [7:2] of a cell are ignored
(spec/40_rowpack.md R110). -/
def Obligations.PackRowSplitsCellsIntoPlanes : Prop :=
  ∀ (p : Nat → Byte) (i : Nat), i < 8 →
    (packRow p).1.toNat / 2 ^ (7 - i) % 2 = (p i).toNat % 2 ∧ (packRow p).2.toNat / 2 ^ (7 - i) % 2 = (p i).toNat / 2 % 2

/-- UNPACKROW: cell i is bit 7-i of lo plus twice bit 7-i of hi (spec/40_rowpack.md R111). -/
def Obligations.UnpackRowJoinsPlanes : Prop :=
  ∀ (lo hi : Byte) (i : Nat), i < 8 →
    (unpackRow lo hi i).toNat = lo.toNat / 2 ^ (7 - i) % 2 + 2 * (hi.toNat / 2 ^ (7 - i) % 2)

/-- The inverse laws of the row functions: packing an unpacked row gives its two bytes back, and unpacking a packed row gives each cell
masked with 3 (spec/40_rowpack.md, the rule on inverse laws, which the spec derives). -/
def Obligations.RowFunctionsAreInverse : Prop :=
  (∀ lo hi : Byte, packRow (unpackRow lo hi) = (lo, hi)) ∧
  (∀ (p : Nat → Byte) (i : Nat), i < 8 → unpackRow (packRow p).1 (packRow p).2 i = p i &&& 3)

/-! ## ENCODE and DECODE -/

/-- ENCODE (spec/41_tile_codec.md R123): on a well-formed document it completes with STATUS 0, SLEN = W*H/4 and the packed tiles from
offset 0 on; the bytes at and beyond SLEN, the document and the host's side are unchanged. On any other document it raises GEOMETRY and
nothing but STATUS changes. -/
def Obligations.EncodePacksTheDocument : Prop :=
  ∀ s : State,
    (DocWellFormed s → ∃ t, exec .encode s = .next t ∧ t.status = 0 ∧
      t.slen.toNat = s.docW.toNat * s.docH.toNat / 4 ∧ t.slen.toNat ≤ strmCap ∧ HoldsPackedTiles s t 0 ∧
      (∀ k, t.slen.toNat ≤ k → strmByte t k = strmByte s k) ∧ t.pix = s.pix ∧ SameDocument s t ∧ SameHost s t) ∧
    (¬ DocWellFormed s → exec .encode s = .next (s.setStatus 3))

/-- DECODE (spec/41_tile_codec.md R125) with a legal mode tag, counts that are not 0 and SLEN = tx*ty*RC*2 completes with STATUS 0 and
the unpacked document; STRM, SLEN and the host's side are unchanged. A reserved tag raises ILLEGAL; else a zero count, or SLEN ≠ N,
raises GEOMETRY; a fault changes nothing but STATUS. -/
def Obligations.DecodeUnpacksTheStream : Prop :=
  ∀ (s : State) (mode tx ty : Byte),
    (∀ m, mode = tag m → tx ≠ 0 → ty ≠ 0 → s.slen.toNat = tx.toNat * ty.toNat * rowCount m * 2 →
      ∃ t, exec (.decode mode tx ty) s = .next t ∧ t.status = 0 ∧ HoldsUnpackedTiles s t m tx.toNat ty.toNat 0 ∧
        DocWellFormed t ∧ t.strm = s.strm ∧ SameStream s t ∧ SameHost s t) ∧
    (mode ≠ 8 → mode ≠ 16 → exec (.decode mode tx ty) s = .next (s.setStatus 5)) ∧
    (∀ m, mode = tag m → tx = 0 ∨ ty = 0 → exec (.decode mode tx ty) s = .next (s.setStatus 3)) ∧
    (∀ m, mode = tag m → s.slen.toNat ≠ tx.toNat * ty.toNat * rowCount m * 2 →
      exec (.decode mode tx ty) s = .next (s.setStatus 3))

/-- A second ENCODE changes nothing more (spec/20_memory.md section 3 names it as a fixed point). -/
def Obligations.SecondEncodeChangesNothing : Prop :=
  ∀ s : State, ∃ t, exec .encode s = .next t ∧ exec .encode t = .next t

/-- ENCODE then DECODE with the document's own mode and counts gives the document back, each cell masked with 3 (spec/41_tile_codec.md,
the round-trip laws, which the spec derives; spec/95_test_vectors.md S5). -/
def Obligations.EncodeThenDecodeMasksCells : Prop :=
  ∀ s : State, DocWellFormed s → s.docW.toNat / 8 ≤ 255 → s.docH.toNat / rowCount s.docMode ≤ 255 →
    ∃ t u, exec .encode s = .next t ∧
      exec (.decode (tag s.docMode) (BitVec.ofNat 8 (s.docW.toNat / 8)) (BitVec.ofNat 8 (s.docH.toNat / rowCount s.docMode))) t =
        .next u ∧
      u.status = 0 ∧ u.docW = s.docW ∧ u.docH = s.docH ∧ u.docMode = s.docMode ∧
      ∀ k, k < s.docW.toNat * s.docH.toNat → pixCell u k = pixCell s k &&& 3

/-- DECODE then ENCODE gives the stream back, every byte of it, and SLEN (spec/41_tile_codec.md, the round-trip laws, which the spec
derives; spec/95_test_vectors.md S6). -/
def Obligations.DecodeThenEncodeRestoresStream : Prop :=
  ∀ (s : State) (m : TileMode) (tx ty : Byte), tx ≠ 0 → ty ≠ 0 → s.slen.toNat = tx.toNat * ty.toNat * rowCount m * 2 →
    ∃ t u, exec (.decode (tag m) tx ty) s = .next t ∧ exec .encode t = .next u ∧ u.status = 0 ∧ SameStream s u

/-- An 8-wide document whose height is a multiple of 16 packs to the same bytes in both modes (spec/41_tile_codec.md, the rule on mode
and layout, which the spec derives). -/
def Obligations.OneTileWidePacksAlikeInBothModes : Prop :=
  ∀ s : State, s.docW = 8 → 0 < s.docH.toNat → s.docH.toNat % 16 = 0 →
    ∃ t u, exec .encode (s.setMode .rows8) = .next t ∧ exec .encode (s.setMode .rows16) = .next u ∧
      t.status = 0 ∧ u.status = 0 ∧ SameStream t u

/-! ## WRITE and READ -/

/-- WRITE (spec/42_framer.md R141, R140): on a well-formed document with both tile counts at most 255 it completes with STATUS 0,
SLEN = 8 + W*H/4, the header from offset 0 on and the packed tiles from offset 8 on; the bytes at and beyond SLEN, the document and the
host's side are unchanged. A malformed document raises GEOMETRY; else a count above 255 raises UNREPRESENTABLE; a fault changes nothing
but STATUS. -/
def Obligations.WriteFramesTheDocument : Prop :=
  ∀ s : State,
    (DocWellFormed s → s.docW.toNat / 8 ≤ 255 → s.docH.toNat / rowCount s.docMode ≤ 255 →
      ∃ t, exec .write s = .next t ∧ t.status = 0 ∧
        t.slen.toNat = 8 + s.docW.toNat * s.docH.toNat / 4 ∧ t.slen.toNat ≤ 2080808 ∧
        strmByte t 0 = Config.magic 0 ∧ strmByte t 1 = Config.magic 1 ∧ strmByte t 2 = Config.magic 2 ∧
        strmByte t 3 = Config.magic 3 ∧ strmByte t 4 = 1 ∧ strmByte t 5 = tag s.docMode ∧
        (strmByte t 6).toNat = s.docW.toNat / 8 ∧ (strmByte t 7).toNat = s.docH.toNat / rowCount s.docMode ∧
        HoldsPackedTiles s t 8 ∧ (∀ k, t.slen.toNat ≤ k → strmByte t k = strmByte s k) ∧
        t.pix = s.pix ∧ SameDocument s t ∧ SameHost s t) ∧
    (¬ DocWellFormed s → exec .write s = .next (s.setStatus 3)) ∧
    (DocWellFormed s → 255 < s.docW.toNat / 8 ∨ 255 < s.docH.toNat / rowCount s.docMode →
      exec .write s = .next (s.setStatus 4))

/-- The 255 limit in pixels: WRITE of a well-formed document reports UNREPRESENTABLE, and writes nothing else, exactly when
DOC_W ≥ 2048, or the mode is Rows8 and DOC_H ≥ 2048; the counts of every file it writes are those of the document, never wrapped
(spec/42_framer.md R142). -/
def Obligations.WriteRejectsWideAndTallDocuments : Prop :=
  (∀ s : State, DocWellFormed s →
    (exec .write s = .next (s.setStatus 4) ↔ 2048 ≤ s.docW.toNat ∨ (s.docMode = .rows8 ∧ 2048 ≤ s.docH.toNat))) ∧
  (∀ s t : State, exec .write s = .next t → t.status = 0 →
    (strmByte t 6).toNat * 8 = s.docW.toNat ∧ (strmByte t 7).toNat * rowCount s.docMode = s.docH.toNat)

/-- READ (spec/42_framer.md R143, R146 to R149) of an accepted header whose payload is present completes with STATUS 0 and the document
that DECODE gives on the bytes from offset 8 on, mode Rows16 exactly when byte 5 is 16; STRM, SLEN and the host's side are unchanged,
and a stream longer than 8 + N loads the same. -/
def Obligations.ReadLoadsTheFile : Prop :=
  ∀ (s : State) (m : TileMode), HeaderAccepted s → (m = .rows16 ↔ strmByte s 5 = 16) →
    8 + (strmByte s 6).toNat * (strmByte s 7).toNat * rowCount m * 2 ≤ s.slen.toNat →
    ∃ t, exec .read s = .next t ∧ t.status = 0 ∧ HoldsUnpackedTiles s t m (strmByte s 6).toNat (strmByte s 7).toNat 8 ∧
      DocWellFormed t ∧ t.strm = s.strm ∧ SameStream s t ∧ SameHost s t

/-- The faults of READ, each in its place in the order of checks: short header TRUNCATED, magic UNRECOGNIZED, version UNRECOGNIZED, zero
count GEOMETRY, short payload TRUNCATED; a fault changes nothing but STATUS (spec/42_framer.md R144, R145, R147, R151). -/
def Obligations.ReadFaultsInOrder : Prop :=
  ∀ s : State,
    (s.slen.toNat < 8 → exec .read s = .next (s.setStatus 2)) ∧
    (8 ≤ s.slen.toNat → ¬ MagicMatches s → exec .read s = .next (s.setStatus 1)) ∧
    (8 ≤ s.slen.toNat → strmByte s 4 ≠ 1 → exec .read s = .next (s.setStatus 1)) ∧
    (8 ≤ s.slen.toNat → MagicMatches s → strmByte s 4 = 1 → strmByte s 6 = 0 ∨ strmByte s 7 = 0 →
      exec .read s = .next (s.setStatus 3)) ∧
    (HeaderAccepted s → s.slen.toNat < 8 + headerPayload s → exec .read s = .next (s.setStatus 2))

/-- Write-then-read: the document comes back with its geometry and mode, each cell masked with 3, STATUS 0 (spec/42_framer.md section 3,
a law the spec derives). -/
def Obligations.WriteThenReadMasksCells : Prop :=
  ∀ s : State, DocWellFormed s → s.docW.toNat / 8 ≤ 255 → s.docH.toNat / rowCount s.docMode ≤ 255 →
    ∃ t u, exec .write s = .next t ∧ exec .read t = .next u ∧
      u.status = 0 ∧ u.docW = s.docW ∧ u.docH = s.docH ∧ u.docMode = s.docMode ∧
      ∀ k, k < s.docW.toNat * s.docH.toNat → pixCell u k = pixCell s k &&& 3

/-- READ of a stream of exactly 8 + N bytes, then WRITE, reproduces the stream; a mode byte that is neither 8 nor 16 comes back as 8
(spec/42_framer.md section 3, a law the spec derives). -/
def Obligations.ReadThenWriteReproducesFile : Prop :=
  ∀ s : State, HeaderAccepted s → s.slen.toNat = 8 + headerPayload s →
    ∃ t u, exec .read s = .next t ∧ exec .write t = .next u ∧ u.status = 0 ∧ u.slen = s.slen ∧
      (∀ k, k ≠ 5 → strmByte u k = strmByte s k) ∧
      strmByte u 5 = if strmByte s 5 = 16 then 16 else 8

/-! ## RESIZE -/

/-- RESIZE (spec/43_resizer.md R160, R161, R162, R164): on a well-formed document and a new geometry valid for the mode it completes with
STATUS 0 and the new geometry; cell (r, c) is the old cell (r, c), all 8 bits of it, when r < min(oh, nh) and c < min(ow, nw), and 0
otherwise, and there is no other cell; DOC_MODE, STRM, SLEN and the host's side are unchanged. When the old or the new geometry is not
valid for the current mode it raises GEOMETRY, and nothing but STATUS changes. -/
def Obligations.ResizeKeepsTheOverlap : Prop :=
  ∀ (s : State) (w h : Geom),
    (DocWellFormed s → ValidGeometry s.docMode w.toNat h.toNat →
      ∃ t, exec (.resize w h) s = .next t ∧ t.status = 0 ∧ t.docW = w ∧ t.docH = h ∧ t.docMode = s.docMode ∧
        (∀ r c, r < h.toNat → c < w.toNat → pixCell t (r * w.toNat + c) =
          if r < min s.docH.toNat h.toNat ∧ c < min s.docW.toNat w.toNat then pixCell s (r * s.docW.toNat + c) else 0) ∧
        NoCellBeyond t ∧ t.strm = s.strm ∧ SameStream s t ∧ SameHost s t) ∧
    (¬ DocWellFormed s → exec (.resize w h) s = .next (s.setStatus 3)) ∧
    (¬ ValidGeometry s.docMode w.toNat h.toNat → exec (.resize w h) s = .next (s.setStatus 3))

/-- RESIZE to the document's own geometry changes nothing but STATUS, which becomes 0 (spec/43_resizer.md section on R162, corner
cases). -/
def Obligations.ResizeToOwnSizeIsIdentity : Prop :=
  ∀ s : State, Inv s → DocWellFormed s → exec (.resize s.docW s.docH) s = .next (s.setStatus 0)

/-- Grow then shrink is the identity: the whole state comes back, with STATUS 0 (spec/43_resizer.md, laws of the resizer (a), which the
spec derives; spec/95_test_vectors.md S4). -/
def Obligations.GrowThenShrinkIsIdentity : Prop :=
  ∀ (s : State) (w h : Geom), Inv s → DocWellFormed s → ValidGeometry s.docMode w.toNat h.toNat →
    s.docW.toNat ≤ w.toNat → s.docH.toNat ≤ h.toNat →
    ∃ t, exec (.resize w h) s = .next t ∧ exec (.resize s.docW s.docH) t = .next (s.setStatus 0)

/-- Two resizes compose by intersection (spec/43_resizer.md, laws of the resizer (c), which the spec derives). -/
def Obligations.TwoResizesKeepTheIntersection : Prop :=
  ∀ (s : State) (w1 h1 w2 h2 : Geom), DocWellFormed s → ValidGeometry s.docMode w1.toNat h1.toNat →
    ValidGeometry s.docMode w2.toNat h2.toNat →
    ∃ t u, exec (.resize w1 h1) s = .next t ∧ exec (.resize w2 h2) t = .next u ∧ u.docW = w2 ∧ u.docH = h2 ∧
      ∀ y x, y < h2.toNat → x < w2.toNat → pixCell u (y * w2.toNat + x) =
        if y < min s.docH.toNat (min h1.toNat h2.toNat) ∧ x < min s.docW.toNat (min w1.toNat w2.toNat)
        then pixCell s (y * s.docW.toNat + x) else 0

/-! ## All commands -/

/-- Faults are precise: after a command, or a CMD write of any word, ILLEGAL or not, that ends with STATUS ≠ 0 the state is the one
before it except for STATUS (spec/60_exceptions.md R197); that the host has the write behind it is the model's form, log entry 3. -/
def Obligations.FaultsChangeOnlyStatus : Prop :=
  (∀ (i : Instr) (s t : State), exec i s = .next t → t.status ≠ 0 → t = s.setStatus t.status) ∧
  (∀ (s t : State) (w : Word) (rest : List HostAction), s.pending = .wrReg 0 w :: rest → step s = .next t → t.status ≠ 0 →
    t = (s.setPending rest).setStatus t.status)

/-- Which command can report what (spec/60_exceptions.md section 3, a table the spec derives). -/
def Obligations.CommandsReportOnlyTheirFaults : Prop :=
  ∀ (i : Instr) (s t : State), exec i s = .next t →
    match i with
    | .encode => t.status = 0 ∨ t.status = 3
    | .decode mode _ _ => t.status = 0 ∨ t.status = 3 ∨ (t.status = 5 ∧ mode ≠ 8 ∧ mode ≠ 16)
    | .write => t.status = 0 ∨ t.status = 3 ∨ t.status = 4
    | .read => t.status = 0 ∨ t.status = 1 ∨ t.status = 2 ∨ t.status = 3
    | .resize _ _ => t.status = 0 ∨ t.status = 3

/-- The outcome of a command does not depend on STATUS (spec/10_state.md R38: every command writes it and no command reads it). -/
def Obligations.CommandsDoNotReadStatus : Prop :=
  ∀ (i : Instr) (s : State) (v : Byte), exec i (s.setStatus v) = exec i s

/-- What a command leaves alone, whatever its outcome (spec/20_memory.md section 1, a table the spec derives): ENCODE and WRITE the
document and the bytes at and beyond the SLEN they leave; DECODE and READ the stream; RESIZE the stream and the mode; every command the
host's side. -/
def Obligations.CommandsReachOnlyTheirSpaces : Prop :=
  ∀ (i : Instr) (s t : State), exec i s = .next t → SameHost s t ∧
    match i with
    | .encode | .write => t.pix = s.pix ∧ SameDocument s t ∧ ∀ k, t.slen.toNat ≤ k → strmByte t k = strmByte s k
    | .decode _ _ _ | .read => t.strm = s.strm ∧ SameStream s t
    | .resize _ _ => t.docMode = s.docMode ∧ t.strm = s.strm ∧ SameStream s t

/-- No command reads a byte of STRM at or beyond SLEN: two states that differ only in those bytes give the same STATUS, document, SLEN
and stream (spec/10_state.md section 5). -/
def Obligations.CommandsReadNoByteBeyondSlen : Prop :=
  ∀ (i : Instr) (s s' t t' : State),
    s.pix = s'.pix → s.docW = s'.docW → s.docH = s'.docH → s.docMode = s'.docMode → s.slen = s'.slen →
    (∀ k, k < s.slen.toNat → strmByte s k = strmByte s' k) → exec i s = .next t → exec i s' = .next t' →
    t.status = t'.status ∧ t.pix = t'.pix ∧ t.docW = t'.docW ∧ t.docH = t'.docH ∧ t.docMode = t'.docMode ∧ t.slen = t'.slen ∧
      ∀ k, k < t.slen.toNat → strmByte t k = strmByte t' k

/-- After a successful DECODE, READ or RESIZE the document is well-formed (spec/10_state.md section 6, invariant (f), which the spec
derives). -/
def Obligations.ReplacedDocumentIsWellFormed : Prop :=
  ∀ (i : Instr) (s t : State), (i ≠ .encode ∧ i ≠ .write) → exec i s = .next t → t.status = 0 → DocWellFormed t

/-- Every cell that DECODE or READ produces has bits [7:2] zero (spec/10_state.md section 5). -/
def Obligations.LoadedCellsHaveTwoBits : Prop :=
  ∀ (i : Instr) (s t : State), (i = .read ∨ ∃ mode tx ty, i = .decode mode tx ty) → exec i s = .next t → t.status = 0 →
    ∀ k, (pixCell t k).toNat < 4

/-! ## The host port -/

/-- RD REG:n returns the register's value, CMD and undefined numbers reading 0, and changes nothing else (spec/44_host_access.md
R171; that the value returned is appended to `replies` is the model's form of it, log entry 3). -/
def Obligations.RegisterReadsReturnTheirValue : Prop :=
  ∀ (s : State) (n : Nat) (rest : List HostAction), s.pending = .rdReg n :: rest →
    ∃ v : Word, step s = .next ((s.setPending rest).addReply (.reg v)) ∧
      v.toNat = if n = 1 then s.status.toNat else if n = 2 then s.docW.toNat else if n = 3 then s.docH.toNat
        else if n = 4 then rowCount s.docMode else if n = 5 then s.slen.toNat else 0

/-- WR REG:n, v for n ≠ 0: register 4 takes 8 and 16 only, register 5 takes values up to STRM_CAP only, and every other write changes
nothing (spec/44_host_access.md R172). -/
def Obligations.RegisterWritesSetModeAndLength : Prop :=
  ∀ (s : State) (n : Nat) (v : Word) (rest : List HostAction), n ≠ 0 → s.pending = .wrReg n v :: rest →
    (n = 4 → v = 8 → step s = .next ((s.setPending rest).setMode .rows8)) ∧
    (n = 4 → v = 16 → step s = .next ((s.setPending rest).setMode .rows16)) ∧
    (n = 4 → v ≠ 8 → v ≠ 16 → step s = .next (s.setPending rest)) ∧
    (n = 5 → v.toNat ≤ 4194304 → ∃ l : Length, l.toNat = v.toNat ∧ step s = .next ((s.setPending rest).setSlen l)) ∧
    (n = 5 → 4194304 < v.toNat → step s = .next (s.setPending rest)) ∧
    (n ≠ 4 → n ≠ 5 → step s = .next (s.setPending rest))

/-- RD PIX:k returns cell k when it exists and 0 otherwise (spec/44_host_access.md R174); RD STRM:k returns byte k when k < 4194304,
whether or not k < SLEN, and 0 otherwise (R176). Neither changes anything else. -/
def Obligations.MemoryReadsReturnTheUnit : Prop :=
  ∀ (s : State) (k : Nat) (rest : List HostAction),
    (s.pending = .rdPix k :: rest → k < s.docW.toNat * s.docH.toNat →
      step s = .next ((s.setPending rest).addReply (.pix (pixCell s k)))) ∧
    (s.pending = .rdPix k :: rest → s.docW.toNat * s.docH.toNat ≤ k →
      step s = .next ((s.setPending rest).addReply (.pix 0))) ∧
    (s.pending = .rdStrm k :: rest → k < 4194304 → step s = .next ((s.setPending rest).addReply (.strm (strmByte s k)))) ∧
    (s.pending = .rdStrm k :: rest → 4194304 ≤ k → step s = .next ((s.setPending rest).addReply (.strm 0)))

/-- WR PIX:k, v stores all 8 bits of v in cell k when that cell exists, and changes nothing otherwise; every other cell, STATUS, the
geometry, the mode, the stream and the host's answers are unchanged (spec/44_host_access.md R175). -/
def Obligations.PixelWriteStoresOneCell : Prop :=
  ∀ (s : State) (k : Nat) (v : Byte) (rest : List HostAction), s.pending = .wrPix k v :: rest →
    (k < s.docW.toNat * s.docH.toNat → ∃ t, step s = .next t ∧ pixCell t k = v ∧ (∀ j, j ≠ k → pixCell t j = pixCell s j) ∧
      t.docW = s.docW ∧ t.docH = s.docH ∧ t.docMode = s.docMode ∧ t.strm = s.strm ∧ SameStream s t ∧ t.status = s.status ∧
      t.pending = rest ∧ t.replies = s.replies ∧ t.resets = s.resets) ∧
    (s.docW.toNat * s.docH.toNat ≤ k → step s = .next (s.setPending rest))

/-- WR STRM:k, v stores v in byte k when k < 4194304, whether or not k < SLEN, and changes nothing otherwise; every other byte, SLEN,
STATUS, the document and the host's answers are unchanged (spec/44_host_access.md R177). -/
def Obligations.StreamWriteStoresOneByte : Prop :=
  ∀ (s : State) (k : Nat) (v : Byte) (rest : List HostAction), s.pending = .wrStrm k v :: rest →
    (k < 4194304 → ∃ t, step s = .next t ∧ strmByte t k = v ∧ (∀ j, j ≠ k → strmByte t j = strmByte s j) ∧
      t.slen = s.slen ∧ t.pix = s.pix ∧ SameDocument s t ∧ t.status = s.status ∧
      t.pending = rest ∧ t.replies = s.replies ∧ t.resets = s.resets) ∧
    (4194304 ≤ k → step s = .next (s.setPending rest))

/-- The reset step: whatever the state before, DOC_W = DOC_H = 8, every cell 0 and no other cell, SLEN = 0, STATUS = 0; what the host
has still to perform and what it was answered are not the block's (spec/10_state.md R37, spec/70_reset_and_hazards.md R220). Nothing is
said of STRM, which is unspecified. -/
def Obligations.ResetGivesTheDefaultDocument : Prop :=
  ∀ (s : State) (rest : List HostAction), s.pending = .reset :: rest →
    ∃ t, step s = .next t ∧ t.docW = 8 ∧ t.docH = 8 ∧ (∀ k, pixCell t k = 0) ∧ NoCellBeyond t ∧ t.slen = 0 ∧ t.status = 0 ∧
      t.pending = rest ∧ t.replies = s.replies

/-- After the reset step the mode is Rows8 and the document is well-formed: the spec's own inference from the invariant on heights
(spec/10_state.md section 9, the row DOC_MODE; log entry 5). -/
def Obligations.ResetModeIsRowsEight : Prop :=
  ∀ (s t : State) (rest : List HostAction), s.pending = .reset :: rest → step s = .next t →
    t.docMode = .rows8 ∧ DocWellFormed t

/-- With nothing asked of it the block does nothing (spec/10_state.md section 1: it never changes state on its own; that a step is then
a wait is the model's, log entry 3). -/
def Obligations.IdleHostLeavesTheBlockAlone : Prop :=
  ∀ s : State, s.pending = [] → step s = .next s

/-! ## The whole machine -/

/-- No step faults or is refused: with an action pending the host has one action less to perform, and with none pending `pending` stays
empty. That every transaction completes is spec/44_host_access.md's (its sections on transactions and the end of a run); that nothing
at all stops the machine is read from it (log entry 9, DEDUCED, which names this statement); that there is a step with no action pending,
and that the host's actions stand in a list, is the model's choice (log entry 3). -/
def Obligations.EveryStepCompletes : Prop :=
  ∀ s : State, ∃ t, step s = .next t ∧ t.pending = s.pending.tail

/-- Of the transactions only a write to REG:0 can change STATUS; the reset step, which is no transaction, can too
(spec/44_host_access.md R170). -/
def Obligations.OnlyCommandIssueChangesStatus : Prop :=
  ∀ s t : State, step s = .next t → t.status ≠ s.status →
    ∃ rest, (∃ w, s.pending = .wrReg 0 w :: rest) ∨ s.pending = .reset :: rest

/-- The geometry changes only in a CMD write of a DECODE, READ or RESIZE that ends with STATUS 0, and in the reset step
(spec/10_state.md section 4, DOC_W and DOC_H). -/
def Obligations.GeometryChangesOnlyBySuccessfulReplacement : Prop :=
  ∀ s t : State, step s = .next t → t.docW ≠ s.docW ∨ t.docH ≠ s.docH →
    ∃ rest, s.pending = .reset :: rest ∨
      ∃ w i, s.pending = .wrReg 0 w :: rest ∧ decodeWord w = .ok i ∧ i ≠ .encode ∧ i ≠ .write ∧ t.status = 0

/-- The invariants of every reachable state, and a well-formed document, hold right after reset (spec/10_state.md sections 6 and 9). -/
def Obligations.InvariantsHoldAtReset : Prop :=
  Inv State.reset ∧ DocWellFormed State.reset

/-- Every step keeps the invariants of spec/10_state.md section 6 (which the spec derives): the cells that exist, the geometry, SLEN,
STATUS, and the canonical form of both memories. -/
def Obligations.StepKeepsInvariants : Prop :=
  ∀ s t : State, Inv s → step s = .next t → Inv t

/-- The document can stop being well-formed only through a host write of DOC_MODE = 16 while DOC_H % 16 = 8 (spec/10_state.md section
6, which the spec derives). -/
def Obligations.WellFormednessLostOnlyByModeWrite : Prop :=
  ∀ s t : State, Inv s → DocWellFormed s → step s = .next t → ¬ DocWellFormed t →
    ∃ rest, s.pending = .wrReg 4 16 :: rest ∧ s.docH.toNat % 16 = 8

/-- Under the invariants a document is malformed exactly when the mode is Rows16 and DOC_H % 16 = 8 (spec/41_tile_codec.md section 2,
ENCODE, exceptions). -/
def Obligations.MalformedExactlyWhenModeOutrunsHeight : Prop :=
  ∀ s : State, Inv s → (¬ DocWellFormed s ↔ s.docMode = .rows16 ∧ s.docH.toNat % 16 = 8)
end

