-- ==== Sys2Proof/Laws/Memory.lean ====
section
/-! SUPPORT. What each memory operation does to a read of one address, and that each keeps the canonical form. -/

namespace Sys2Proof.Machine

/-! ## Read after write -/

@[simp] theorem Memory.cellAt_nil (k : Nat) : Memory.cellAt [] k = none := rfl

theorem Memory.cellAt_cons (a : Nat) (v : Byte) (m : Memory) (k : Nat) :
    Memory.cellAt ((a, v) :: m) k = if a = k then some v else Memory.cellAt m k := rfl

theorem Memory.cellAt_append (m l : Memory) (k : Nat) :
    Memory.cellAt (m ++ l) k = (Memory.cellAt m k).or (Memory.cellAt l k) := by
  induction m with
  | nil => rfl
  | cons c m ih =>
    obtain ⟨a, v⟩ := c
    rw [List.cons_append, cellAt_cons, cellAt_cons, ih]
    split <;> rfl

theorem Memory.cellAt_put (m : Memory) (k : Nat) (v : Byte) (j : Nat) :
    (m.put k v).cellAt j = if k = j then some v else m.cellAt j := by
  induction m with
  | nil => rfl
  | cons c m ih =>
    obtain ⟨a, u⟩ := c
    simp only [put]
    split
    · rfl
    · split
      · next h => simp only [cellAt_cons, h]; split <;> rfl
      · next h => rw [cellAt_cons, cellAt_cons, ih]; split <;> split <;> simp_all

theorem Memory.cellAt_filter (m : Memory) (p : Nat → Bool) (j : Nat) :
    Memory.cellAt (m.filter fun c => p c.1) j = if p j then m.cellAt j else none := by
  induction m with
  | nil => simp
  | cons c m ih =>
    obtain ⟨a, u⟩ := c
    rw [List.filter_cons, cellAt_cons]
    by_cases h : a = j
    · subst h; by_cases hp : p a <;> simp [hp, cellAt_cons, ih]
    · by_cases hp : p a <;> simp [hp, cellAt_cons, ih, h]

theorem Memory.cellAt_unlist (m : Memory) (k j : Nat) :
    (m.unlist k).cellAt j = if k = j then none else m.cellAt j := by
  have := cellAt_filter m (fun a => a ≠ k) j
  simp only [unlist]
  rw [this]
  by_cases h : k = j <;> simp [h, eq_comm]

theorem Memory.cellAt_map_range (n : Nat) (f : Nat → Byte) (j : Nat) :
    Memory.cellAt ((List.range n).map fun k => (k, f k)) j = if j < n then some (f j) else none := by
  induction n with
  | zero => simp
  | succ n ih =>
    rw [List.range_succ, List.map_append, cellAt_append, ih]
    simp only [List.map_cons, List.map_nil, cellAt_cons, cellAt_nil]
    by_cases h : j < n
    · simp [h, Nat.lt_succ_of_lt h]
    · by_cases h' : n = j
      · simp [h']
      · simp [h, h', show ¬ j < n + 1 by omega]

theorem Memory.cellAt_overwrite (m : Memory) (n : Nat) (f : Nat → Byte) (j : Nat) :
    (m.overwrite n f).cellAt j = if j < n then some (f j) else m.cellAt j := by
  rw [overwrite, cellAt_append, cellAt_map_range]
  have h := cellAt_filter m (fun a => decide (n ≤ a)) j
  rw [h]
  by_cases hj : j < n
  · simp [hj]
  · simp [hj, show n ≤ j by omega]

theorem Memory.tabulate_succ (n : Nat) (f : Nat → Byte) :
    Memory.tabulate (n + 1) f = Memory.tabulate n f ++ (nonzeroCell n (f n)).toList := by
  simp only [tabulate, List.range_succ, List.filterMap_append]
  cases h : nonzeroCell n (f n) <;> simp [h]

theorem Memory.cellAt_nonzeroCell (k : Nat) (v : Byte) (j : Nat) :
    Memory.cellAt (nonzeroCell k v).toList j = if k = j ∧ v ≠ 0 then some v else none := by
  unfold nonzeroCell
  by_cases hv : v = 0
  · rw [if_pos hv, if_neg (fun h => h.2 hv)]; rfl
  · rw [if_neg hv, Option.toList_some, cellAt_cons, cellAt_nil]
    by_cases hk : k = j
    · rw [if_pos hk, if_pos ⟨hk, hv⟩]
    · rw [if_neg hk, if_neg fun h => hk h.1]

theorem Memory.cellAt_tabulate (n : Nat) (f : Nat → Byte) (j : Nat) :
    (Memory.tabulate n f).cellAt j = if j < n ∧ f j ≠ 0 then some (f j) else none := by
  induction n with
  | zero => simp [tabulate]
  | succ n ih =>
    rw [tabulate_succ, cellAt_append, ih, cellAt_nonzeroCell]
    by_cases hj : n = j
    · subst hj
      rw [if_neg fun h => Nat.lt_irrefl _ h.1, Option.none_or]
      exact if_congr ⟨fun h => ⟨Nat.lt_succ_self _, h.2⟩, fun h => ⟨rfl, h.2⟩⟩ rfl rfl
    · rw [if_neg (c := n = j ∧ f n ≠ 0) fun h => hj h.1, Option.or_none]
      exact if_congr (and_congr_left' (by omega)) rfl rfl

/-- A relocated cell is read at its new place. -/
theorem Memory.cellAt_relocate (m : Memory) (g : Nat → Option Nat) (j a : Nat) (hj : g j = some a)
    (inj : ∀ k, g k = some a → k = j) : (m.relocate g).cellAt a = m.cellAt j := by
  induction m with
  | nil => rfl
  | cons c m ih =>
    obtain ⟨k, v⟩ := c
    simp only [relocate] at ih ⊢
    rw [List.filterMap_cons, cellAt_cons]
    by_cases h : k = j
    · subst h; simp [hj, cellAt_cons]
    · simp only [h, if_false]
      cases hk : g k with
      | none => simpa using ih
      | some b =>
        have : b ≠ a := fun hb => h (inj k (by rw [hk, hb]))
        simpa [cellAt_cons, this] using ih

/-- A place no cell is relocated to is unlisted. -/
theorem Memory.cellAt_relocate_none (m : Memory) (g : Nat → Option Nat) (a : Nat) (h : ∀ k, g k ≠ some a) :
    (m.relocate g).cellAt a = none := by
  induction m with
  | nil => rfl
  | cons c m ih =>
    obtain ⟨k, v⟩ := c
    simp only [relocate] at ih ⊢
    rw [List.filterMap_cons]
    cases hk : g k with
    | none => simpa using ih
    | some b =>
      have : b ≠ a := fun hb => h k (by rw [hk, hb])
      simpa [cellAt_cons, this] using ih

/-! ## Which entries a memory lists -/

theorem Memory.mem_of_cellAt {m : Memory} {k : Nat} {v : Byte} (h : m.cellAt k = some v) : (k, v) ∈ m := by
  induction m with
  | nil => cases h
  | cons c m ih =>
    obtain ⟨a, u⟩ := c
    rw [cellAt_cons] at h
    split at h
    · next e => cases h; simp [e]
    · exact List.mem_cons_of_mem _ (ih h)

theorem Memory.cellAt_of_mem {m : Memory} {k : Nat} {v : Byte} (hm : m.Pairwise (fun c d => c.1 < d.1)) (h : (k, v) ∈ m) :
    m.cellAt k = some v := by
  induction m with
  | nil => cases h
  | cons c m ih =>
    obtain ⟨a, u⟩ := c
    rw [List.pairwise_cons] at hm
    rw [cellAt_cons]
    rcases List.mem_cons.1 h with e | h
    · cases e; simp
    · have := hm.1 _ h
      simp only at this
      rw [if_neg (by omega), ih hm.2 h]

theorem Memory.mem_put {m : Memory} {k : Nat} {v : Byte} {c : Host.Cell} (h : c ∈ m.put k v) : c = (k, v) ∨ c ∈ m := by
  induction m with
  | nil => simpa [put] using h
  | cons d m ih =>
    obtain ⟨a, u⟩ := d
    simp only [put] at h
    split at h
    · simpa using h
    · split at h
      · rcases List.mem_cons.1 h with h | h <;> simp [h]
      · rcases List.mem_cons.1 h with h | h
        · simp [h]
        · rcases ih h with h | h <;> simp [h]

theorem Memory.mem_unlist {m : Memory} {k : Nat} {c : Host.Cell} (h : c ∈ m.unlist k) : c ∈ m := (List.mem_filter.1 h).1

theorem Memory.mem_overwrite {m : Memory} {n : Nat} {f : Nat → Byte} {c : Host.Cell} (h : c ∈ m.overwrite n f) :
    c.1 < n ∨ c ∈ m := by
  rcases List.mem_append.1 h with h | h
  · obtain ⟨k, hk, rfl⟩ := List.mem_map.1 h
    exact .inl (List.mem_range.1 hk)
  · exact .inr (List.mem_filter.1 h).1

theorem Memory.mem_tabulate {n : Nat} {f : Nat → Byte} {c : Host.Cell} (h : c ∈ Memory.tabulate n f) :
    c.1 < n ∧ c.2 = f c.1 ∧ c.2 ≠ 0 := by
  obtain ⟨k, hk, he⟩ := List.mem_filterMap.1 h
  unfold nonzeroCell at he
  split at he
  · cases he
  · cases he; exact ⟨List.mem_range.1 hk, rfl, ‹_›⟩

theorem Memory.mem_relocate {m : Memory} {g : Nat → Option Nat} {c : Host.Cell} (h : c ∈ m.relocate g) :
    ∃ k, g k = some c.1 ∧ (k, c.2) ∈ m := by
  obtain ⟨⟨k, v⟩, hd, he⟩ := List.mem_filterMap.1 h
  cases hk : g k with
  | none => simp [hk] at he
  | some a => simp only [hk, Option.map_some] at he; cases he; exact ⟨k, hk, hd⟩

/-! ## The canonical form is kept -/

theorem Memory.nil_wf (u : Option Byte) : Memory.wf u [] := ⟨.nil, by simp⟩

theorem Memory.put_wf {u : Option Byte} {m : Memory} (h : Memory.wf u m) (k : Nat) {v : Byte} (hv : some v ≠ u) :
    Memory.wf u (m.put k v) := by
  refine ⟨?_, fun c hc => ?_⟩
  · have hs := h.1
    clear h
    induction m with
    | nil => simp [put]
    | cons c m ih =>
      obtain ⟨a, w⟩ := c
      rw [List.pairwise_cons] at hs
      simp only [put]
      split
      · next hka =>
        refine List.pairwise_cons.2 ⟨fun d hd => ?_, List.pairwise_cons.2 hs⟩
        rcases List.mem_cons.1 hd with rfl | hd
        · exact hka
        · exact Nat.lt_trans hka (hs.1 d hd)
      · split
        · next e => subst e; exact List.pairwise_cons.2 ⟨hs.1, hs.2⟩
        · refine List.pairwise_cons.2 ⟨fun d hd => ?_, ih hs.2⟩
          rcases mem_put hd with rfl | hd
          · simp only; omega
          · exact hs.1 d hd
  · rcases mem_put hc with rfl | hc
    · exact hv
    · exact h.2 c hc

theorem Memory.filter_wf {u : Option Byte} {m : Memory} (h : Memory.wf u m) (p : Host.Cell → Bool) :
    Memory.wf u (m.filter p) :=
  ⟨h.1.filter p, fun c hc => h.2 c (List.mem_filter.1 hc).1⟩

theorem Memory.unlist_wf {u : Option Byte} {m : Memory} (h : Memory.wf u m) (k : Nat) : Memory.wf u (m.unlist k) :=
  filter_wf h _

theorem Memory.overwrite_wf {m : Memory} (h : Memory.wf strmUnlisted m) (n : Nat) (f : Nat → Byte) :
    Memory.wf strmUnlisted (m.overwrite n f) := by
  refine ⟨List.pairwise_append.2 ⟨?_, h.1.filter _, fun c hc d hd => ?_⟩, fun c _ => by simp⟩
  · exact List.pairwise_map.2 List.pairwise_lt_range
  · obtain ⟨k, hk, rfl⟩ := List.mem_map.1 hc
    have := (List.mem_filter.1 hd).2
    simp only [decide_eq_true_eq] at this
    exact Nat.lt_of_lt_of_le (List.mem_range.1 hk) this

theorem Memory.tabulate_wf (n : Nat) (f : Nat → Byte) : Memory.wf pixUnlisted (Memory.tabulate n f) := by
  refine ⟨?_, fun c hc h => (mem_tabulate hc).2.2 (by simpa using h)⟩
  induction n with
  | zero => exact .nil
  | succ n ih =>
    rw [tabulate_succ]
    refine List.pairwise_append.2 ⟨ih, by cases nonzeroCell n (f n) <;> simp, fun c hc d hd => ?_⟩
    rw [Option.mem_toList, nonzeroCell] at hd
    split at hd
    · cases hd
    · cases hd; exact (mem_tabulate hc).1

theorem Memory.relocate_wf {u : Option Byte} {m : Memory} (h : Memory.wf u m) {g : Nat → Option Nat}
    (mono : ∀ j k a b, j < k → g j = some a → g k = some b → a < b) : Memory.wf u (m.relocate g) := by
  refine ⟨?_, fun c hc => ?_⟩
  · refine h.1.filterMap _ fun c d hcd a ha b hb => ?_
    cases hc : g c.1 with
    | none => simp [hc] at ha
    | some x =>
      cases hd : g d.1 with
      | none => simp [hd] at hb
      | some y =>
        simp only [hc, Option.map_some, Option.some.injEq] at ha
        simp only [hd, Option.map_some, Option.some.injEq] at hb
        subst ha hb
        exact mono _ _ _ _ hcd hc hd
  · obtain ⟨k, -, hk⟩ := mem_relocate hc
    exact h.2 (k, c.2) hk

/-- Two memories in canonical form that read alike are the same list. -/
theorem Memory.ext_of_wf {u : Option Byte} {m l : Memory} (hm : Memory.wf u m) (hl : Memory.wf u l)
    (h : ∀ k, m.cellAt k = l.cellAt k) : m = l := by
  have mem : ∀ c, c ∈ m ↔ c ∈ l := fun c =>
    ⟨fun hc => mem_of_cellAt (by rw [← h]; exact cellAt_of_mem hm.1 hc),
     fun hc => mem_of_cellAt (by rw [h]; exact cellAt_of_mem hl.1 hc)⟩
  have nodup : ∀ {m : Memory}, m.Pairwise (fun c d => c.1 < d.1) → m.Nodup := fun hp =>
    hp.imp fun hlt e => by rw [e] at hlt; exact Nat.lt_irrefl _ hlt
  refine List.Perm.eq_of_pairwise (fun c d _ _ hcd hdc => absurd hcd (Nat.lt_asymm hdc)) hm.1 hl.1 ?_
  exact (List.perm_ext_iff_of_nodup (nodup hm.1) (nodup hl.1)).2 fun c => mem c

end Sys2Proof.Machine
end

