-- ==== Sys2Proof/Laws/State.lean ====
section
/-! SUPPORT. One lemma per field per update of State, true by rfl, so that no later proof unfolds a record update. -/

namespace Sys2Proof.Machine

@[simp] theorem State.setStatus_pix (s : State) (v : Byte) : (s.setStatus v).pix = s.pix := rfl
@[simp] theorem State.setStatus_docW (s : State) (v : Byte) : (s.setStatus v).docW = s.docW := rfl
@[simp] theorem State.setStatus_docH (s : State) (v : Byte) : (s.setStatus v).docH = s.docH := rfl
@[simp] theorem State.setStatus_docMode (s : State) (v : Byte) : (s.setStatus v).docMode = s.docMode := rfl
@[simp] theorem State.setStatus_strm (s : State) (v : Byte) : (s.setStatus v).strm = s.strm := rfl
@[simp] theorem State.setStatus_slen (s : State) (v : Byte) : (s.setStatus v).slen = s.slen := rfl
@[simp] theorem State.setStatus_status (s : State) (v : Byte) : (s.setStatus v).status = v := rfl
@[simp] theorem State.setStatus_pending (s : State) (v : Byte) : (s.setStatus v).pending = s.pending := rfl
@[simp] theorem State.setStatus_replies (s : State) (v : Byte) : (s.setStatus v).replies = s.replies := rfl
@[simp] theorem State.setStatus_resets (s : State) (v : Byte) : (s.setStatus v).resets = s.resets := rfl

@[simp] theorem State.setMode_pix (s : State) (m : TileMode) : (s.setMode m).pix = s.pix := rfl
@[simp] theorem State.setMode_docW (s : State) (m : TileMode) : (s.setMode m).docW = s.docW := rfl
@[simp] theorem State.setMode_docH (s : State) (m : TileMode) : (s.setMode m).docH = s.docH := rfl
@[simp] theorem State.setMode_docMode (s : State) (m : TileMode) : (s.setMode m).docMode = m := rfl
@[simp] theorem State.setMode_strm (s : State) (m : TileMode) : (s.setMode m).strm = s.strm := rfl
@[simp] theorem State.setMode_slen (s : State) (m : TileMode) : (s.setMode m).slen = s.slen := rfl
@[simp] theorem State.setMode_status (s : State) (m : TileMode) : (s.setMode m).status = s.status := rfl
@[simp] theorem State.setMode_pending (s : State) (m : TileMode) : (s.setMode m).pending = s.pending := rfl
@[simp] theorem State.setMode_replies (s : State) (m : TileMode) : (s.setMode m).replies = s.replies := rfl
@[simp] theorem State.setMode_resets (s : State) (m : TileMode) : (s.setMode m).resets = s.resets := rfl

@[simp] theorem State.setSlen_pix (s : State) (n : Length) : (s.setSlen n).pix = s.pix := rfl
@[simp] theorem State.setSlen_docW (s : State) (n : Length) : (s.setSlen n).docW = s.docW := rfl
@[simp] theorem State.setSlen_docH (s : State) (n : Length) : (s.setSlen n).docH = s.docH := rfl
@[simp] theorem State.setSlen_docMode (s : State) (n : Length) : (s.setSlen n).docMode = s.docMode := rfl
@[simp] theorem State.setSlen_strm (s : State) (n : Length) : (s.setSlen n).strm = s.strm := rfl
@[simp] theorem State.setSlen_slen (s : State) (n : Length) : (s.setSlen n).slen = n := rfl
@[simp] theorem State.setSlen_status (s : State) (n : Length) : (s.setSlen n).status = s.status := rfl
@[simp] theorem State.setSlen_pending (s : State) (n : Length) : (s.setSlen n).pending = s.pending := rfl
@[simp] theorem State.setSlen_replies (s : State) (n : Length) : (s.setSlen n).replies = s.replies := rfl
@[simp] theorem State.setSlen_resets (s : State) (n : Length) : (s.setSlen n).resets = s.resets := rfl

@[simp] theorem State.setPix_pix (s : State) (m : Memory) : (s.setPix m).pix = m := rfl
@[simp] theorem State.setPix_docW (s : State) (m : Memory) : (s.setPix m).docW = s.docW := rfl
@[simp] theorem State.setPix_docH (s : State) (m : Memory) : (s.setPix m).docH = s.docH := rfl
@[simp] theorem State.setPix_docMode (s : State) (m : Memory) : (s.setPix m).docMode = s.docMode := rfl
@[simp] theorem State.setPix_strm (s : State) (m : Memory) : (s.setPix m).strm = s.strm := rfl
@[simp] theorem State.setPix_slen (s : State) (m : Memory) : (s.setPix m).slen = s.slen := rfl
@[simp] theorem State.setPix_status (s : State) (m : Memory) : (s.setPix m).status = s.status := rfl
@[simp] theorem State.setPix_pending (s : State) (m : Memory) : (s.setPix m).pending = s.pending := rfl
@[simp] theorem State.setPix_replies (s : State) (m : Memory) : (s.setPix m).replies = s.replies := rfl
@[simp] theorem State.setPix_resets (s : State) (m : Memory) : (s.setPix m).resets = s.resets := rfl

@[simp] theorem State.setStrm_pix (s : State) (m : Memory) : (s.setStrm m).pix = s.pix := rfl
@[simp] theorem State.setStrm_docW (s : State) (m : Memory) : (s.setStrm m).docW = s.docW := rfl
@[simp] theorem State.setStrm_docH (s : State) (m : Memory) : (s.setStrm m).docH = s.docH := rfl
@[simp] theorem State.setStrm_docMode (s : State) (m : Memory) : (s.setStrm m).docMode = s.docMode := rfl
@[simp] theorem State.setStrm_strm (s : State) (m : Memory) : (s.setStrm m).strm = m := rfl
@[simp] theorem State.setStrm_slen (s : State) (m : Memory) : (s.setStrm m).slen = s.slen := rfl
@[simp] theorem State.setStrm_status (s : State) (m : Memory) : (s.setStrm m).status = s.status := rfl
@[simp] theorem State.setStrm_pending (s : State) (m : Memory) : (s.setStrm m).pending = s.pending := rfl
@[simp] theorem State.setStrm_replies (s : State) (m : Memory) : (s.setStrm m).replies = s.replies := rfl
@[simp] theorem State.setStrm_resets (s : State) (m : Memory) : (s.setStrm m).resets = s.resets := rfl

@[simp] theorem State.setBuffer_pix (s : State) (m : Memory) (w h : Geom) : (s.setBuffer m w h).pix = m := rfl
@[simp] theorem State.setBuffer_docW (s : State) (m : Memory) (w h : Geom) : (s.setBuffer m w h).docW = w := rfl
@[simp] theorem State.setBuffer_docH (s : State) (m : Memory) (w h : Geom) : (s.setBuffer m w h).docH = h := rfl
@[simp] theorem State.setBuffer_docMode (s : State) (m : Memory) (w h : Geom) : (s.setBuffer m w h).docMode = s.docMode := rfl
@[simp] theorem State.setBuffer_strm (s : State) (m : Memory) (w h : Geom) : (s.setBuffer m w h).strm = s.strm := rfl
@[simp] theorem State.setBuffer_slen (s : State) (m : Memory) (w h : Geom) : (s.setBuffer m w h).slen = s.slen := rfl
@[simp] theorem State.setBuffer_status (s : State) (m : Memory) (w h : Geom) : (s.setBuffer m w h).status = s.status := rfl
@[simp] theorem State.setBuffer_pending (s : State) (m : Memory) (w h : Geom) : (s.setBuffer m w h).pending = s.pending := rfl
@[simp] theorem State.setBuffer_replies (s : State) (m : Memory) (w h : Geom) : (s.setBuffer m w h).replies = s.replies := rfl
@[simp] theorem State.setBuffer_resets (s : State) (m : Memory) (w h : Geom) : (s.setBuffer m w h).resets = s.resets := rfl

@[simp] theorem State.setPending_pix (s : State) (l : List HostAction) : (s.setPending l).pix = s.pix := rfl
@[simp] theorem State.setPending_docW (s : State) (l : List HostAction) : (s.setPending l).docW = s.docW := rfl
@[simp] theorem State.setPending_docH (s : State) (l : List HostAction) : (s.setPending l).docH = s.docH := rfl
@[simp] theorem State.setPending_docMode (s : State) (l : List HostAction) : (s.setPending l).docMode = s.docMode := rfl
@[simp] theorem State.setPending_strm (s : State) (l : List HostAction) : (s.setPending l).strm = s.strm := rfl
@[simp] theorem State.setPending_slen (s : State) (l : List HostAction) : (s.setPending l).slen = s.slen := rfl
@[simp] theorem State.setPending_status (s : State) (l : List HostAction) : (s.setPending l).status = s.status := rfl
@[simp] theorem State.setPending_pending (s : State) (l : List HostAction) : (s.setPending l).pending = l := rfl
@[simp] theorem State.setPending_replies (s : State) (l : List HostAction) : (s.setPending l).replies = s.replies := rfl
@[simp] theorem State.setPending_resets (s : State) (l : List HostAction) : (s.setPending l).resets = s.resets := rfl

@[simp] theorem State.addReply_pix (s : State) (r : Reply) : (s.addReply r).pix = s.pix := rfl
@[simp] theorem State.addReply_docW (s : State) (r : Reply) : (s.addReply r).docW = s.docW := rfl
@[simp] theorem State.addReply_docH (s : State) (r : Reply) : (s.addReply r).docH = s.docH := rfl
@[simp] theorem State.addReply_docMode (s : State) (r : Reply) : (s.addReply r).docMode = s.docMode := rfl
@[simp] theorem State.addReply_strm (s : State) (r : Reply) : (s.addReply r).strm = s.strm := rfl
@[simp] theorem State.addReply_slen (s : State) (r : Reply) : (s.addReply r).slen = s.slen := rfl
@[simp] theorem State.addReply_status (s : State) (r : Reply) : (s.addReply r).status = s.status := rfl
@[simp] theorem State.addReply_pending (s : State) (r : Reply) : (s.addReply r).pending = s.pending := rfl
@[simp] theorem State.addReply_replies (s : State) (r : Reply) : (s.addReply r).replies = s.replies ++ [r] := rfl
@[simp] theorem State.addReply_resets (s : State) (r : Reply) : (s.addReply r).resets = s.resets := rfl

@[simp] theorem State.afterReset_pix (s : State) : (s.afterReset).pix = [] := rfl
@[simp] theorem State.afterReset_docW (s : State) : (s.afterReset).docW = 8 := rfl
@[simp] theorem State.afterReset_docH (s : State) : (s.afterReset).docH = 8 := rfl
@[simp] theorem State.afterReset_docMode (s : State) : (s.afterReset).docMode = .rows8 := rfl
@[simp] theorem State.afterReset_strm (s : State) : (s.afterReset).strm = [] := rfl
@[simp] theorem State.afterReset_slen (s : State) : (s.afterReset).slen = 0 := rfl
@[simp] theorem State.afterReset_status (s : State) : (s.afterReset).status = 0 := rfl
@[simp] theorem State.afterReset_pending (s : State) : (s.afterReset).pending = s.pending := rfl
@[simp] theorem State.afterReset_replies (s : State) : (s.afterReset).replies = s.replies := rfl
@[simp] theorem State.afterReset_resets (s : State) : (s.afterReset).resets = s.resets + 1 := rfl

@[simp] theorem State.setStatus_setStatus (s : State) (v v' : Byte) : (s.setStatus v).setStatus v' = s.setStatus v' := rfl
@[simp] theorem State.setMode_setMode (s : State) (m m' : TileMode) : (s.setMode m).setMode m' = s.setMode m' := rfl
@[simp] theorem State.setSlen_setSlen (s : State) (n n' : Length) : (s.setSlen n).setSlen n' = s.setSlen n' := rfl
@[simp] theorem State.setPix_setPix (s : State) (m m' : Memory) : (s.setPix m).setPix m' = s.setPix m' := rfl
@[simp] theorem State.setStrm_setStrm (s : State) (m m' : Memory) : (s.setStrm m).setStrm m' = s.setStrm m' := rfl
@[simp] theorem State.setBuffer_setBuffer (s : State) (m m' : Memory) (w h w' h' : Geom) : (s.setBuffer m w h).setBuffer m' w' h' = s.setBuffer m' w' h' := rfl
@[simp] theorem State.setPending_setPending (s : State) (l l' : List HostAction) : (s.setPending l).setPending l' = s.setPending l' := rfl

/-- A state is its ten fields. -/
theorem State.ext_fields {s t : State} (h1 : s.pix = t.pix) (h2 : s.docW = t.docW) (h3 : s.docH = t.docH)
    (h4 : s.docMode = t.docMode) (h5 : s.strm = t.strm) (h6 : s.slen = t.slen) (h7 : s.status = t.status)
    (h8 : s.pending = t.pending) (h9 : s.replies = t.replies) (h10 : s.resets = t.resets) : s = t := by
  cases s; cases t; simp_all

end Sys2Proof.Machine
end

