-- ==== Sys2Proof/Laws/Ops.lean ====
section
/-! SUPPORT. What one unit of PIX or STRM reads as after each update of the state, and what each way a command ends does. -/

namespace Sys2Proof.Machine

/-! ## Updates that leave a memory alone -/

@[simp] theorem pixCell_setStatus (s : State) (v : Byte) (k : Nat) : pixCell (s.setStatus v) k = pixCell s k := rfl
@[simp] theorem pixCell_setMode (s : State) (m : TileMode) (k : Nat) : pixCell (s.setMode m) k = pixCell s k := rfl
@[simp] theorem pixCell_setSlen (s : State) (n : Length) (k : Nat) : pixCell (s.setSlen n) k = pixCell s k := rfl
@[simp] theorem pixCell_setStrm (s : State) (m : Memory) (k : Nat) : pixCell (s.setStrm m) k = pixCell s k := rfl
@[simp] theorem pixCell_setPending (s : State) (l : List HostAction) (k : Nat) :
    pixCell (s.setPending l) k = pixCell s k := rfl
@[simp] theorem pixCell_addReply (s : State) (r : Reply) (k : Nat) : pixCell (s.addReply r) k = pixCell s k := rfl
@[simp] theorem pixCell_setBuffer (s : State) (m : Memory) (w h : Geom) (k : Nat) :
    pixCell (s.setBuffer m w h) k = (m.cellAt k).getD 0 := rfl
@[simp] theorem pixCell_afterReset (s : State) (k : Nat) : pixCell s.afterReset k = 0 := rfl

@[simp] theorem strmByte_setStatus (s : State) (v : Byte) (k : Nat) : strmByte (s.setStatus v) k = strmByte s k := rfl
@[simp] theorem strmByte_setMode (s : State) (m : TileMode) (k : Nat) : strmByte (s.setMode m) k = strmByte s k := rfl
@[simp] theorem strmByte_setSlen (s : State) (n : Length) (k : Nat) : strmByte (s.setSlen n) k = strmByte s k := rfl
@[simp] theorem strmByte_setPix (s : State) (m : Memory) (k : Nat) : strmByte (s.setPix m) k = strmByte s k := rfl
@[simp] theorem strmByte_setBuffer (s : State) (m : Memory) (w h : Geom) (k : Nat) :
    strmByte (s.setBuffer m w h) k = strmByte s k := rfl
@[simp] theorem strmByte_setPending (s : State) (l : List HostAction) (k : Nat) :
    strmByte (s.setPending l) k = strmByte s k := rfl
@[simp] theorem strmByte_addReply (s : State) (r : Reply) (k : Nat) : strmByte (s.addReply r) k = strmByte s k := rfl
@[simp] theorem strmByte_afterReset (s : State) (k : Nat) :
    strmByte s.afterReset k = Config.strmAtReset (s.resets + 1) k := rfl

/-! ## Stores -/

theorem storePix_eq (s : State) (k : Nat) (v : Byte) :
    storePix s k v = s.setPix (if v = 0 then s.pix.unlist k else s.pix.put k v) := rfl

theorem pixCell_storePix (s : State) (k : Nat) (v : Byte) (j : Nat) :
    pixCell (storePix s k v) j = if k = j then v else pixCell s j := by
  by_cases hv : v = 0
  · simp only [pixCell, storePix, State.setPix_pix, if_pos hv, Memory.cellAt_unlist]
    split <;> simp [hv]
  · simp only [pixCell, storePix, State.setPix_pix, if_neg hv, Memory.cellAt_put]
    split <;> simp

@[simp] theorem strmByte_storePix (s : State) (k : Nat) (v : Byte) (j : Nat) :
    strmByte (storePix s k v) j = strmByte s j := rfl

theorem strmByte_storeStrm (s : State) (k : Nat) (v : Byte) (j : Nat) :
    strmByte (storeStrm s k v) j = if k = j then v else strmByte s j := by
  simp only [strmByte, storeStrm, State.setStrm_strm, State.setStrm_resets, Memory.cellAt_put]
  split <;> rfl

@[simp] theorem pixCell_storeStrm (s : State) (k : Nat) (v : Byte) (j : Nat) :
    pixCell (storeStrm s k v) j = pixCell s j := rfl

theorem strmByte_storeStream (s : State) (n : Nat) (f : Nat → Byte) (j : Nat) :
    strmByte (storeStream s n f) j = if j < n then f j else strmByte s j := by
  simp only [strmByte, storeStream, State.setStrm_strm, State.setSlen_strm, State.setStrm_resets, State.setSlen_resets,
    Memory.cellAt_overwrite]
  split <;> rfl

@[simp] theorem pixCell_storeStream (s : State) (n : Nat) (f : Nat → Byte) (j : Nat) :
    pixCell (storeStream s n f) j = pixCell s j := rfl

@[simp] theorem storeStream_pix (s : State) (n : Nat) (f : Nat → Byte) : (storeStream s n f).pix = s.pix := rfl
@[simp] theorem storeStream_docW (s : State) (n : Nat) (f : Nat → Byte) : (storeStream s n f).docW = s.docW := rfl
@[simp] theorem storeStream_docH (s : State) (n : Nat) (f : Nat → Byte) : (storeStream s n f).docH = s.docH := rfl
@[simp] theorem storeStream_docMode (s : State) (n : Nat) (f : Nat → Byte) : (storeStream s n f).docMode = s.docMode := rfl
@[simp] theorem storeStream_strm (s : State) (n : Nat) (f : Nat → Byte) : (storeStream s n f).strm = s.strm.overwrite n f := rfl
@[simp] theorem storeStream_slen (s : State) (n : Nat) (f : Nat → Byte) : (storeStream s n f).slen = BitVec.ofNat 23 n := rfl
@[simp] theorem storeStream_status (s : State) (n : Nat) (f : Nat → Byte) : (storeStream s n f).status = s.status := rfl
@[simp] theorem storeStream_pending (s : State) (n : Nat) (f : Nat → Byte) : (storeStream s n f).pending = s.pending := rfl
@[simp] theorem storeStream_replies (s : State) (n : Nat) (f : Nat → Byte) : (storeStream s n f).replies = s.replies := rfl
@[simp] theorem storeStream_resets (s : State) (n : Nat) (f : Nat → Byte) : (storeStream s n f).resets = s.resets := rfl

/-! ## How a command ends -/

theorem raise_eq (f : Code) (s : State) : raise f s = .next (s.setStatus (codeValue f)) := rfl

theorem done_eq (s : State) : done s = .next (s.setStatus 0) := rfl

end Sys2Proof.Machine
end

