-- ==== Sys2Proof/Laws/Codec.lean ====
section
/-! SUPPORT. The row functions bit by bit; the codec at TileOff and PixIdx; the document that a load leaves. -/

namespace Sys2Proof.Machine

/-! ## PACKROW and UNPACKROW, bit by bit -/

/-- Bit 7-i of the low plane is bit 0 of cell i (spec/40_rowpack.md R110). -/
theorem packRow_lo_bit (p : Nat → Byte) (i : Nat) (hi : i < 8) : (packRow p).1.getLsbD (7 - i) = (p i).getLsbD 0 := by
  simp only [packRow, List.range, List.range.loop, List.foldl]
  interval_cases i <;> simp

/-- Bit 7-i of the high plane is bit 1 of cell i (spec/40_rowpack.md R110). -/
theorem packRow_hi_bit (p : Nat → Byte) (i : Nat) (hi : i < 8) : (packRow p).2.getLsbD (7 - i) = (p i).getLsbD 1 := by
  simp only [packRow, List.range, List.range.loop, List.foldl]
  interval_cases i <;> simp

/-- The bits of an unpacked cell (spec/40_rowpack.md R111). -/
theorem unpackRow_bit (lo hi : Byte) (i b : Nat) :
    (unpackRow lo hi i).getLsbD b = (decide (b = 0) && lo.getLsbD (7 - i) || decide (b = 1) && hi.getLsbD (7 - i)) := by
  rcases b with _ | _ | b <;> simp [unpackRow]

/-- PACKROW looks at its eight cells only. -/
theorem packRow_congr {p q : Nat → Byte} (h : ∀ i, i < 8 → p i = q i) : packRow p = packRow q := by
  simp [packRow, List.range, List.range.loop, h]

/-! ## Index formulas -/

theorem rowCount_pos (m : TileMode) : 0 < rowCount m := by cases m <;> decide

theorem rowCount_le (m : TileMode) : rowCount m ≤ 16 := by cases m <;> decide

/-- The loop indices of a byte offset of the packed stream (spec/20_memory.md R57). -/
theorem tileOff_indices {tx rc tyi txi r p : Nat} (hx : txi < tx) (hr : r < rc) (hp : p < 2) :
    tileOff tx rc tyi txi r p % 2 = p ∧ tileOff tx rc tyi txi r p / 2 % rc = r ∧
      tileOff tx rc tyi txi r p / 2 / rc % tx = txi ∧ tileOff tx rc tyi txi r p / 2 / rc / tx = tyi := by
  have h2 : tileOff tx rc tyi txi r p / 2 = r + rc * (tyi * tx + txi) := by
    unfold tileOff; rw [Nat.mul_comm rc]; omega
  have hrc : 0 < rc := by omega
  have h3 : tileOff tx rc tyi txi r p / 2 / rc = txi + tx * tyi := by
    rw [h2, Nat.add_mul_div_left _ _ hrc, Nat.div_eq_of_lt hr, Nat.zero_add, Nat.mul_comm tyi, Nat.add_comm]
  refine ⟨by unfold tileOff; omega, ?_, ?_, ?_⟩
  · rw [h2, Nat.add_mul_mod_self_left, Nat.mod_eq_of_lt hr]
  · rw [h3, Nat.add_mul_mod_self_left, Nat.mod_eq_of_lt hx]
  · rw [h3, Nat.add_mul_div_left _ _ (by omega), Nat.div_eq_of_lt hx, Nat.zero_add]

/-- The pixel row and column of a cell index (spec/20_memory.md R61). -/
theorem pixIdx_indices {tx rc tyi txi r i : Nat} (hx : txi < tx) (hr : r < rc) (hi : i < 8) :
    pixIdx (tx * 8) rc tyi txi r i / (tx * 8) / rc = tyi ∧ pixIdx (tx * 8) rc tyi txi r i / (tx * 8) % rc = r ∧
      pixIdx (tx * 8) rc tyi txi r i % (tx * 8) / 8 = txi ∧ pixIdx (tx * 8) rc tyi txi r i % (tx * 8) % 8 = i := by
  have hc : txi * 8 + i < tx * 8 := by omega
  have he : pixIdx (tx * 8) rc tyi txi r i = (txi * 8 + i) + tx * 8 * (tyi * rc + r) := by
    unfold pixIdx; rw [Nat.mul_comm (tx * 8)]; omega
  have hd : pixIdx (tx * 8) rc tyi txi r i / (tx * 8) = r + rc * tyi := by
    rw [he, Nat.add_mul_div_left _ _ (by omega), Nat.div_eq_of_lt hc, Nat.zero_add, Nat.mul_comm tyi, Nat.add_comm]
  have hm : pixIdx (tx * 8) rc tyi txi r i % (tx * 8) = txi * 8 + i := by
    rw [he, Nat.add_mul_mod_self_left, Nat.mod_eq_of_lt hc]
  refine ⟨?_, ?_, ?_, ?_⟩
  · rw [hd, Nat.add_mul_div_left _ _ (by omega), Nat.div_eq_of_lt hr, Nat.zero_add]
  · rw [hd, Nat.add_mul_mod_self_left, Nat.mod_eq_of_lt hr]
  · rw [hm]; omega
  · rw [hm]; omega

theorem tileOff_lt {tx ty rc tyi txi r p : Nat} (hy : tyi < ty) (hx : txi < tx) (hr : r < rc) (hp : p < 2) :
    tileOff tx rc tyi txi r p < tx * ty * rc * 2 := by
  have h1 : tyi * tx + txi + 1 ≤ tx * ty := by nlinarith
  have h2 : (tyi * tx + txi) * rc + r + 1 ≤ tx * ty * rc := by nlinarith
  unfold tileOff; omega

theorem pixIdx_lt {tx ty rc tyi txi r i : Nat} (hy : tyi < ty) (hx : txi < tx) (hr : r < rc) (hi : i < 8) :
    pixIdx (tx * 8) rc tyi txi r i < tx * 8 * (ty * rc) := by
  have h1 : tyi * rc + r + 1 ≤ ty * rc := by nlinarith
  have h2 : (tyi * rc + r + 1) * (tx * 8) ≤ ty * rc * (tx * 8) := Nat.mul_le_mul_right _ h1
  have h3 : txi * 8 + i < tx * 8 := by omega
  unfold pixIdx
  nlinarith

/-- Every cell index of a canvas of tx by ty tiles is a PixIdx. -/
theorem exists_pixIdx {tx ty rc k : Nat} (hk : k < tx * 8 * (ty * rc)) :
    ∃ tyi txi r i, tyi < ty ∧ txi < tx ∧ r < rc ∧ i < 8 ∧ k = pixIdx (tx * 8) rc tyi txi r i := by
  have hw : 0 < tx * 8 := Nat.pos_of_ne_zero fun h => by simp [h] at hk
  have hrc : 0 < rc := Nat.pos_of_ne_zero fun h => by simp [h] at hk
  have hc : k % (tx * 8) < tx * 8 := Nat.mod_lt _ hw
  refine ⟨k / (tx * 8) / rc, k % (tx * 8) / 8, k / (tx * 8) % rc, k % (tx * 8) % 8, ?_, by omega, Nat.mod_lt _ hrc,
    Nat.mod_lt _ (by decide), ?_⟩
  · rw [Nat.div_lt_iff_lt_mul hrc, Nat.div_lt_iff_lt_mul hw, Nat.mul_comm]; exact hk
  · unfold pixIdx
    rw [Nat.div_add_mod', Nat.add_assoc, Nat.div_add_mod', Nat.div_add_mod']

/-- Every offset of the packed stream of tx by ty tiles is a TileOff. -/
theorem exists_tileOff {tx ty rc k : Nat} (hk : k < tx * ty * rc * 2) :
    ∃ tyi txi r p, tyi < ty ∧ txi < tx ∧ r < rc ∧ p < 2 ∧ k = tileOff tx rc tyi txi r p := by
  have htx : 0 < tx := Nat.pos_of_ne_zero fun h => by simp [h] at hk
  have hrc : 0 < rc := Nat.pos_of_ne_zero fun h => by simp [h] at hk
  refine ⟨k / 2 / rc / tx, k / 2 / rc % tx, k / 2 % rc, k % 2, ?_, Nat.mod_lt _ htx, Nat.mod_lt _ hrc,
    Nat.mod_lt _ (by decide), ?_⟩
  · rw [Nat.div_lt_iff_lt_mul htx, Nat.div_lt_iff_lt_mul hrc, Nat.mul_comm ty]; omega
  · unfold tileOff
    rw [Nat.div_add_mod', Nat.div_add_mod', Nat.div_add_mod']

/-! ## EncodeFn and DecodeFn -/

/-- The byte at TileOff is one plane of the row's PACKROW (spec/41_tile_codec.md R121). -/
theorem encodeByte_tileOff (P : Nat → Byte) {w rc tyi txi r p : Nat} (hx : txi < w / 8) (hr : r < rc) (hp : p < 2) :
    encodeByte P w rc (tileOff (w / 8) rc tyi txi r p) =
      if p = 0 then (packRow fun i => P (pixIdx w rc tyi txi r i)).1 else (packRow fun i => P (pixIdx w rc tyi txi r i)).2 := by
  obtain ⟨h1, h2, h3, h4⟩ := tileOff_indices (tyi := tyi) hx hr hp
  simp only [encodeByte, h1, h2, h3, h4]

/-- The cell at PixIdx is one cell of the row's UNPACKROW (spec/41_tile_codec.md R122). -/
theorem decodeCell_pixIdx (B : Nat → Byte) {tx rc tyi txi r i : Nat} (hx : txi < tx) (hr : r < rc) (hi : i < 8) :
    decodeCell B tx rc (pixIdx (tx * 8) rc tyi txi r i) =
      unpackRow (B (tileOff tx rc tyi txi r 0)) (B (tileOff tx rc tyi txi r 1)) i := by
  obtain ⟨h1, h2, h3, h4⟩ := pixIdx_indices (tyi := tyi) hx hr hi
  simp only [decodeCell, h1, h2, h3, h4]
  rfl

/-! ## The document that DECODE and READ leave -/

@[simp] theorem loadDocument_docW (s : State) (m : TileMode) (tx ty base : Nat) :
    (loadDocument s m tx ty base).docW = BitVec.ofNat 12 (tx * 8) := rfl
@[simp] theorem loadDocument_docH (s : State) (m : TileMode) (tx ty base : Nat) :
    (loadDocument s m tx ty base).docH = BitVec.ofNat 12 (ty * rowCount m) := rfl
@[simp] theorem loadDocument_docMode (s : State) (m : TileMode) (tx ty base : Nat) :
    (loadDocument s m tx ty base).docMode = m := rfl
@[simp] theorem loadDocument_strm (s : State) (m : TileMode) (tx ty base : Nat) :
    (loadDocument s m tx ty base).strm = s.strm := rfl
@[simp] theorem loadDocument_slen (s : State) (m : TileMode) (tx ty base : Nat) :
    (loadDocument s m tx ty base).slen = s.slen := rfl
@[simp] theorem loadDocument_status (s : State) (m : TileMode) (tx ty base : Nat) :
    (loadDocument s m tx ty base).status = s.status := rfl
@[simp] theorem loadDocument_pending (s : State) (m : TileMode) (tx ty base : Nat) :
    (loadDocument s m tx ty base).pending = s.pending := rfl
@[simp] theorem loadDocument_replies (s : State) (m : TileMode) (tx ty base : Nat) :
    (loadDocument s m tx ty base).replies = s.replies := rfl
@[simp] theorem loadDocument_resets (s : State) (m : TileMode) (tx ty base : Nat) :
    (loadDocument s m tx ty base).resets = s.resets := rfl
@[simp] theorem strmByte_loadDocument (s : State) (m : TileMode) (tx ty base k : Nat) :
    strmByte (loadDocument s m tx ty base) k = strmByte s k := rfl

theorem pixCell_loadDocument (s : State) (m : TileMode) (tx ty base k : Nat) :
    pixCell (loadDocument s m tx ty base) k =
      if k < tx * 8 * (ty * rowCount m) then decodeCell (fun o => strmByte s (base + o)) tx (rowCount m) k else 0 := by
  simp only [pixCell, loadDocument, State.setMode_pix, State.setBuffer_pix, Memory.cellAt_tabulate]
  split
  · next h => rw [if_pos h.1]; rfl
  · next h =>
    split
    · next hk => exact (not_not.1 fun hz => h ⟨hk, hz⟩).symm
    · rfl

end Sys2Proof.Machine
end

