-- ==== Sys2Proof/Laws/Resizer.lean ====
section
/-! SUPPORT. ResizeFn cell by cell (spec/43_resizer.md R160). -/

namespace Sys2Proof.Machine

/-- A cell of the overlap keeps its row and column. -/
theorem resizePlace_overlap {ow oh nw nh r c : Nat} (hr : r < min oh nh) (hc : c < min ow nw) :
    resizePlace ow oh nw nh (r * ow + c) = some (r * nw + c) := by
  have ho : c < ow := by omega
  have hd : (r * ow + c) / ow = r := by
    rw [Nat.add_comm, Nat.add_mul_div_right _ _ (by omega), Nat.div_eq_of_lt ho, Nat.zero_add]
  have hm : (r * ow + c) % ow = c := by rw [Nat.add_comm, Nat.add_mul_mod_self_right, Nat.mod_eq_of_lt ho]
  rw [resizePlace, hd, hm, if_pos ⟨hr, hc⟩]

/-- Only a cell of the overlap has a place. -/
theorem resizePlace_some {ow oh nw nh k a : Nat} (h : resizePlace ow oh nw nh k = some a) :
    ∃ r c, r < min oh nh ∧ c < min ow nw ∧ k = r * ow + c ∧ a = r * nw + c := by
  unfold resizePlace at h
  split at h
  · next hk => cases h; exact ⟨k / ow, k % ow, hk.1, hk.2, (Nat.div_add_mod' k ow).symm, rfl⟩
  · cases h

theorem row_col_unique {w r c r' c' : Nat} (hc : c < w) (hc' : c' < w) (h : r * w + c = r' * w + c') : r = r' ∧ c = c' := by
  have hd : ∀ {r c : Nat}, c < w → (r * w + c) / w = r := fun hc => by
    rw [Nat.add_comm, Nat.add_mul_div_right _ _ (by omega), Nat.div_eq_of_lt hc, Nat.zero_add]
  have hr : r = r' := by rw [← hd (r := r) hc, h, hd hc']
  subst hr
  exact ⟨rfl, by omega⟩

theorem resizePlace_inj {ow oh nw nh j k a : Nat} (hj : resizePlace ow oh nw nh j = some a)
    (hk : resizePlace ow oh nw nh k = some a) : j = k := by
  obtain ⟨r, c, -, hc, rfl, rfl⟩ := resizePlace_some hj
  obtain ⟨r', c', -, hc', rfl, he⟩ := resizePlace_some hk
  obtain ⟨rfl, rfl⟩ := row_col_unique (w := nw) (by omega) (by omega) he
  rfl

theorem resizePlace_mono (ow oh nw nh j k a b : Nat) (hjk : j < k) (hj : resizePlace ow oh nw nh j = some a)
    (hk : resizePlace ow oh nw nh k = some b) : a < b := by
  obtain ⟨r, c, -, hc, rfl, rfl⟩ := resizePlace_some hj
  obtain ⟨r', c', -, hc', rfl, rfl⟩ := resizePlace_some hk
  rcases Nat.lt_trichotomy r r' with h | h | h
  · have : (r + 1) * nw ≤ r' * nw := Nat.mul_le_mul_right _ h
    rw [Nat.succ_mul] at this; omega
  · subst h; omega
  · have : (r' + 1) * ow ≤ r * ow := Nat.mul_le_mul_right _ h
    rw [Nat.succ_mul] at this; omega

/-- A place lies in the new buffer. -/
theorem resizePlace_lt {ow oh nw nh k a : Nat} (h : resizePlace ow oh nw nh k = some a) : a < nw * nh := by
  obtain ⟨r, c, hr, hc, -, rfl⟩ := resizePlace_some h
  have : (r + 1) * nw ≤ nh * nw := Nat.mul_le_mul_right _ (by omega)
  rw [Nat.succ_mul, Nat.mul_comm nh] at this
  omega

/-- The new buffer, cell by cell: Q[r*nw + c] = P[r*ow + c] in the overlap and 0 outside it (spec/43_resizer.md R160). -/
theorem relocate_resizePlace (m : Memory) (ow oh nw nh r c : Nat) (hc : c < nw) :
    ((m.relocate (resizePlace ow oh nw nh)).cellAt (r * nw + c)).getD 0 =
      if r < min oh nh ∧ c < min ow nw then (m.cellAt (r * ow + c)).getD 0 else 0 := by
  split
  · next h =>
    have hp := resizePlace_overlap h.1 h.2
    rw [Memory.cellAt_relocate m _ _ _ hp fun k hk => resizePlace_inj hk hp]
  · next h =>
    rw [Memory.cellAt_relocate_none]
    · rfl
    · intro k hk
      obtain ⟨r', c', hr', hc', -, he⟩ := resizePlace_some hk
      obtain ⟨rfl, rfl⟩ := row_col_unique (w := nw) hc (by omega) he
      exact h ⟨hr', hc'⟩

/-- Resizing keeps the canonical form. -/
theorem relocate_resizePlace_wf {m : Memory} (h : Memory.wf pixUnlisted m) (ow oh nw nh : Nat) :
    Memory.wf pixUnlisted (m.relocate (resizePlace ow oh nw nh)) :=
  Memory.relocate_wf h (resizePlace_mono ow oh nw nh)

end Sys2Proof.Machine
end

