-- ==== Sys2Proof/Laws/Commands.lean ====
section
/-! SUPPORT. Everything a command can answer, said once (`exec_cases`), and what a step performs (`step_cons`). -/

namespace Sys2Proof.Machine

theorem modeOfTag_tag (m : TileMode) : modeOfTag (tag m) = some m := by cases m <;> rfl

/-- A tag names a mode, or it is reserved. -/
theorem modeOfTag_cases (v : Byte) :
    (∃ m, modeOfTag v = some m ∧ v = tag m) ∨ (modeOfTag v = none ∧ v ≠ 8 ∧ v ≠ 16) := by
  unfold modeOfTag
  split
  · next h => exact .inl ⟨.rows8, rfl, h⟩
  · split
    · next h => exact .inl ⟨.rows16, rfl, h⟩
    · next h8 h16 => exact .inr ⟨rfl, h8, h16⟩

/-- A command that succeeds. Which writes it has made, by command. -/
inductive Succeeds (s : State) : Instr → State → Prop where
  | encode (wf : DocWellFormed s) : Succeeds s .encode
      (storeStream s (s.docW.toNat * s.docH.toNat / 4) (encodeByte (pixCell s) s.docW.toNat (rowCount s.docMode)))
  | decode (m : TileMode) (tx ty : Byte) (hx : tx ≠ 0) (hy : ty ≠ 0)
      (len : s.slen.toNat = packedLength m tx.toNat ty.toNat) : Succeeds s (.decode (tag m) tx ty)
      (loadDocument s m tx.toNat ty.toNat 0)
  | write (wf : DocWellFormed s) (hx : s.docW.toNat / 8 ≤ 255) (hy : s.docH.toNat / rowCount s.docMode ≤ 255) :
      Succeeds s .write (storeStream s (8 + s.docW.toNat * s.docH.toNat / 4) (fileByte s))
  | read (hd : HeaderAccepted s) (len : 8 + headerPayload s ≤ s.slen.toNat) : Succeeds s .read
      (loadDocument s (modeOfHeader (strmByte s 5)) (strmByte s 6).toNat (strmByte s 7).toNat 8)
  | resize (w h : Geom) (wf : DocWellFormed s) (new : ValidGeometry s.docMode w.toNat h.toNat) : Succeeds s (.resize w h)
      (s.setBuffer (s.pix.relocate (resizePlace s.docW.toNat s.docH.toNat w.toNat h.toNat)) w h)

/-- A command that succeeds ends in `done`. -/
theorem exec_of_succeeds {s u : State} {i : Instr} (h : Succeeds s i u) : exec i s = .next (u.setStatus 0) := by
  cases h with
  | encode wf => simp only [exec, execEncode, not_not.2 wf, if_false]; rfl
  | decode m tx ty hx hy len =>
    simp only [exec, execDecode, modeOfTag_tag, not_or.2 ⟨hx, hy⟩, not_not.2 len, if_false]; rfl
  | write wf hx hy =>
    have : ¬ (s.docW.toNat / 8 > tcMax ∨ s.docH.toNat / rowCount s.docMode > tcMax) := by
      rw [not_or]; exact ⟨Nat.not_lt.2 hx, Nat.not_lt.2 hy⟩
    simp only [exec, execWrite, not_not.2 wf, this, if_false]; rfl
  | read hd len =>
    obtain ⟨h8, hm, hv, hx, hy⟩ := hd
    have hz : ¬ ((strmByte s 6).toNat = 0 ∨ (strmByte s 7).toNat = 0) := by
      rw [not_or]; exact ⟨fun h => hx (BitVec.eq_of_toNat_eq h), fun h => hy (BitVec.eq_of_toNat_eq h)⟩
    simp only [exec, execRead, Nat.not_lt.2 h8, not_not.2 hm, show strmByte s 4 = versionByte from hv, hz,
      show ¬ s.slen.toNat < hdrLen + packedLength _ _ _ from Nat.not_lt.2 len, ne_eq, not_true_eq_false, if_false]
    rfl
  | resize w h wf new => simp only [exec, execResize, not_not.2 wf, not_not.2 new, if_false]; rfl

/-- Everything a command can answer: it succeeds, or it raises a fault. -/
theorem exec_cases (i : Instr) (s : State) :
    (∃ u, Succeeds s i u ∧ exec i s = .next (u.setStatus 0)) ∨
    (∃ f, f ≠ .ok ∧ exec i s = .next (s.setStatus (codeValue f))) := by
  have fault : ∀ {f : Code}, f ≠ .ok → exec i s = raise f s →
      (∃ u, Succeeds s i u ∧ exec i s = .next (u.setStatus 0)) ∨
      (∃ f, f ≠ .ok ∧ exec i s = .next (s.setStatus (codeValue f))) := fun hf h => .inr ⟨_, hf, h⟩
  have success : ∀ {u : State}, Succeeds s i u →
      (∃ u, Succeeds s i u ∧ exec i s = .next (u.setStatus 0)) ∨
      (∃ f, f ≠ .ok ∧ exec i s = .next (s.setStatus (codeValue f))) := fun h => .inl ⟨_, h, exec_of_succeeds h⟩
  cases i with
  | encode =>
    by_cases wf : DocWellFormed s
    · exact success (.encode wf)
    · exact fault (f := .geometry) (by decide) (by simp only [exec, execEncode, wf, not_false_eq_true, if_true])
  | decode mode tx ty =>
    rcases modeOfTag_cases mode with ⟨m, hm, rfl⟩ | ⟨hm, -, -⟩
    · by_cases hz : tx = 0 ∨ ty = 0
      · exact fault (f := .geometry) (by decide) (by simp only [exec, execDecode, hm, hz, if_true])
      · by_cases hl : s.slen.toNat = packedLength m tx.toNat ty.toNat
        · exact success (.decode m tx ty (not_or.1 hz).1 (not_or.1 hz).2 hl)
        · exact fault (f := .geometry) (by decide)
            (by simp only [exec, execDecode, hm, hz, ne_eq, hl, not_false_eq_true, if_true, if_false])
    · exact fault (f := .illegal) (by decide) (by simp only [exec, execDecode, hm])
  | write =>
    by_cases wf : DocWellFormed s
    · by_cases hc : s.docW.toNat / 8 > tcMax ∨ s.docH.toNat / rowCount s.docMode > tcMax
      · exact fault (f := .unrepresentable) (by decide)
          (by simp only [exec, execWrite, not_not.2 wf, hc, if_true, if_false])
      · exact success (.write wf (Nat.not_lt.1 (not_or.1 hc).1) (Nat.not_lt.1 (not_or.1 hc).2))
    · exact fault (f := .geometry) (by decide) (by simp only [exec, execWrite, wf, not_false_eq_true, if_true])
  | read =>
    by_cases h8 : s.slen.toNat < hdrLen
    · exact fault (f := .truncated) (by decide) (by simp only [exec, execRead, h8, if_true])
    by_cases hm : MagicMatches s
    · by_cases hv : strmByte s 4 = versionByte
      · by_cases hz : (strmByte s 6).toNat = 0 ∨ (strmByte s 7).toNat = 0
        · exact fault (f := .geometry) (by decide)
            (by simp only [exec, execRead, h8, not_not.2 hm, hv, hz, ne_eq, not_true_eq_false, if_true, if_false])
        · by_cases hl : s.slen.toNat < hdrLen + headerPayload s
          · refine fault (f := .truncated) (by decide) ?_
            rw [headerPayload] at hl
            simp only [exec, execRead, h8, not_not.2 hm, hv, hz, hl, ne_eq, not_true_eq_false, if_true, if_false]
          · refine success (.read ⟨Nat.not_lt.1 h8, hm, hv, ?_, ?_⟩ (Nat.not_lt.1 hl))
            · exact fun h => hz (.inl (by rw [h]; rfl))
            · exact fun h => hz (.inr (by rw [h]; rfl))
      · exact fault (f := .unrecognized) (by decide)
          (by simp only [exec, execRead, h8, not_not.2 hm, hv, ne_eq, not_false_eq_true, if_true, if_false])
    · exact fault (f := .unrecognized) (by decide)
        (by simp only [exec, execRead, h8, hm, not_false_eq_true, if_true, if_false])
  | resize w h =>
    by_cases wf : DocWellFormed s
    · by_cases new : ValidGeometry s.docMode w.toNat h.toNat
      · exact success (.resize w h wf new)
      · exact fault (f := .geometry) (by decide)
          (by simp only [exec, execResize, not_not.2 wf, new, not_false_eq_true, if_true, if_false])
    · exact fault (f := .geometry) (by decide) (by simp only [exec, execResize, wf, not_false_eq_true, if_true])

/-- A step performs the host's oldest action. -/
theorem step_cons {s : State} {a : HostAction} {rest : List HostAction} (h : s.pending = a :: rest) :
    step s = perform (s.setPending rest) a := by simp only [step, h]

end Sys2Proof.Machine
end

