-- ==== Sys2Proof/Laws/PerInstr.lean ====
section
/-! SUPPORT. Statements made per instruction: each encoded command stands in its row of the opcode map (spec/30_encoding.md R85). -/

namespace Sys2Proof.Laws.TableRow
open Sys2Proof

/-- The `mask` and `match` of a command's row. -/
def row : Instr → Word × Word
  | .encode => (0xFFFFFFFF, 0x00000001)
  | .decode _ _ _ => (0x000000FF, 0x00000002)
  | .write => (0xFFFFFFFF, 0x00000003)
  | .read => (0xFFFFFFFF, 0x00000004)
  | .resize _ _ => (0x000000FF, 0x00000005)

/-- The word of `i` is selected by its row: w & mask = match. -/
def Statement (i : Instr) : Prop := encodeWord i &&& (row i).1 = (row i).2

theorem encode : Statement .encode := rfl

theorem decode (mode tx ty : Byte) : Statement (.decode mode tx ty) := by
  refine BitVec.eq_of_getLsbD_eq fun b hb => ?_
  interval_cases b <;> simp [encodeWord, row]

theorem write : Statement .write := rfl

theorem read : Statement .read := rfl

theorem resize (neww newh : Geom) : Statement (.resize neww newh) := by
  refine BitVec.eq_of_getLsbD_eq fun b hb => ?_
  interval_cases b <;> simp [encodeWord, row]

end Sys2Proof.Laws.TableRow
end

