-- ==== Sys2Proof/Tests/Slice0.lean ====
section
/-! SUPPORT. Tests: words written out from the encodings of spec/30_encoding.md, vectors of spec/95_test_vectors.md (the source of each
expected value is named), and one witness for the hypotheses of each obligation. -/

namespace Sys2Proof.Tests
open Sys2Proof Sys2Proof.Machine

/-- One observation of a next state. -/
def seen {α : Type} (o : Result) (f : State → α) : Option α :=
  match o with
  | .next t => some (f t)
  | _ => none

/-- A document of the given geometry and mode, the rest as after reset. -/
def doc (w h : Geom) (m : TileMode) : State := { State.reset with docW := w, docH := h, docMode := m }

/-- The reset state with a stream of the given length in which `m` lists what was written. -/
def stream (m : Memory) (n : Length) : State := { State.reset with strm := m, slen := n }

/-- The reset state with the host about to perform `l`. -/
def about (l : List HostAction) : State := State.reset.thenPerform l

/-- A file header of the given version, mode byte and tile counts. -/
def head (v m x y : Byte) : Memory :=
  [(0, Config.magic 0), (1, Config.magic 1), (2, Config.magic 2), (3, Config.magic 3), (4, v), (5, m), (6, x), (7, y)]

/-! ## Well-formedness and decoding -/

/-- R82: a mode tag of 7 is no command. -/
theorem test_reserved_tag_is_ill_formed : ¬ (Instr.decode 7 1 1).WellFormed := by decide
theorem test_legal_tag_is_well_formed : (Instr.decode 16 1 1).WellFormed := by decide

/-! R81 to R83: the fields laid out bit by bit, most significant first (`encoding` of spec/opcode_table.json). -/

theorem test_decode_encode : decodeWord 0b00000000000000000000000000000001 = .ok .encode := rfl
theorem test_decode_decode : decodeWord 0b11111111000000100001000000000010 = .ok (.decode 16 2 255) := rfl
theorem test_decode_write : decodeWord 0b00000000000000000000000000000011 = .ok .write := rfl
theorem test_decode_read : decodeWord 0b00000000000000000000000000000100 = .ok .read := rfl
theorem test_decode_resize : decodeWord 0b00000000100010000000000000000101 = .ok (.resize 2048 8) := rfl

/-! V-C1: the ILLEGAL words, by the case of R86. -/

theorem test_decode_illegal_opcode : decodeWord 0 = .error .reservedOpcode ∧ decodeWord 6 = .error .reservedOpcode ∧
    decodeWord 0x000000FF = .error .reservedOpcode ∧ decodeWord 0xFFFFFFFF = .error .reservedOpcode := ⟨rfl, rfl, rfl, rfl⟩
theorem test_decode_illegal_bits : decodeWord 0x00000101 = .error .reservedBits ∧ decodeWord 0x80000003 = .error .reservedBits ∧
    decodeWord 0x00000104 = .error .reservedBits := ⟨rfl, rfl, rfl⟩
theorem test_decode_illegal_mode : decodeWord 0x01010702 = .error .reservedMode ∧ decodeWord 0x01011102 = .error .reservedMode :=
  ⟨rfl, rfl⟩

/-- R94: `RESIZE 16, 8` = 0x00801005 and `DECODE 7, 1, 1` = 0x01010702. -/
theorem test_assembly : encodeWord (.resize 16 8) = 0x00801005 ∧ encodeWord (.decode 7 1 1) = 0x01010702 := by decide

/-- The table's bit numbering: bit 0 of the word is the least significant. -/
theorem test_table_word : decodeTableWord 32 0x01021002 = some (.decode 16 2 1) ∧ decodeTableWord 32 0 = none := by decide

/-! ## Row functions, B1 of spec/95_test_vectors.md -/

/-- V-R6, V-R7, V-R8. -/
theorem test_packRow :
    packRow (fun i => [1, 0, 0, 0, 0, 0, 0, 2].getD i 0) = (0x80, 0x01) ∧
    packRow (fun i => [3, 2, 1, 0, 0, 1, 2, 3].getD i 0) = (0xA5, 0xC3) ∧
    packRow (fun i => [0x04, 0x05, 0x06, 0x07, 0xFF, 0x82, 0, 0].getD i 0) = (0x58, 0x3C) := by decide

/-- "(A5, 3C) -> 1 0 3 2 2 3 0 1". -/
theorem test_unpackRow : (List.range 8).map (unpackRow 0xA5 0x3C) = [1, 0, 3, 2, 2, 3, 0, 1] := by decide

/-! ## Commands -/

/-- The four quadrants of V-E4 and V-E5 (the fourth quadrant is 0). -/
def quadrants (m : TileMode) : State :=
  { doc 16 16 m with
    pix := Memory.tabulate 256 fun k => if k / 16 < 8 then (if k % 16 < 8 then 1 else 2) else (if k % 16 < 8 then 3 else 0) }

/-- V-E4: bytes 15, 16, 17 and 32 of the Rows8 stream. -/
theorem test_encode_rows8 : seen (exec .encode (quadrants .rows8)) (fun t =>
    (t.slen.toNat, strmByte t 15, strmByte t 16, strmByte t 17, strmByte t 32, strmByte t 48)) =
    some (64, 0x00, 0x00, 0xFF, 0xFF, 0x00) := by decide +kernel

/-- V-E5: the same pixels in Rows16; tile (0,0) rows 8 to 15 stand before tile (0,1). -/
theorem test_encode_rows16 : seen (exec .encode (quadrants .rows16)) (fun t =>
    (t.slen.toNat, strmByte t 14, strmByte t 16, strmByte t 32, strmByte t 33, strmByte t 48)) =
    some (64, 0xFF, 0xFF, 0x00, 0xFF, 0x00) := by decide +kernel

/-- V-D1: row 0 all 3, other rows 0. -/
theorem test_decode_row : seen (exec (.decode 8 1 1) (stream ((List.range 16).map fun k => (k, if k < 2 then 0xFF else 0)) 16))
    (fun t => (t.pix, t.docW, t.docH, t.docMode, t.status)) =
    some ((List.range 8).map fun k => (k, 3), 8, 8, .rows8, 0) := by decide +kernel

/-- V-D3: SLEN = 17 with `DECODE 8, 1, 1` is GEOMETRY, and `DECODE 0, 0, 0` is ILLEGAL before the counts are judged. -/
theorem test_decode_faults : seen (exec (.decode 8 1 1) (stream [] 17)) State.status = some 3 ∧
    seen (exec (.decode 0 0 0) (stream [] 17)) State.status = some 5 := by decide

/-- "`WRITE` in this state gives header `M0 M1 M2 M3 01 10 02 01` and SLEN = 72" (V-E5). -/
theorem test_write_header : ∃ t, exec .write (quadrants .rows16) = .next t ∧ t.slen.toNat = 72 ∧
    (List.range 4).map (strmByte t) = [Config.magic 0, Config.magic 1, Config.magic 2, Config.magic 3] ∧
    (List.range 5).map (fun k => strmByte t (4 + k)) = [0x01, 0x10, 0x02, 0x01, 0xFF] :=
  ⟨_, exec_of_succeeds (.write (by decide) (by decide) (by decide)), by decide, rfl, by decide +kernel⟩

/-- V-W3: 2048 by 8, and 8 by 2048 in Rows8, are UNREPRESENTABLE. -/
theorem test_write_unrepresentable : seen (exec .write (doc 2048 8 .rows8)) State.status = some 4 ∧
    seen (exec .write (doc 8 2048 .rows8)) State.status = some 4 := by decide

/-- The row "mode byte 7 defaults to Rows8; 8 × 8 all 3; DOC_MODE reads 8" of V-RD2. -/
def oddModeFile : State := stream (head 1 7 1 1 ++ (List.range 16).map fun k => (8 + k, 0xFF)) 24

theorem test_read_odd_mode : ∃ t, exec .read oddModeFile = .next t ∧
    (t.status, t.docW, t.docH, t.docMode) = (0, 8, 8, .rows8) ∧ pixCell t 0 = 3 ∧ pixCell t 63 = 3 :=
  ⟨_, exec_of_succeeds (.read ⟨by decide, ⟨rfl, rfl, rfl, rfl⟩, rfl, by decide, by decide⟩ (by decide)), rfl, by decide, by decide⟩

/-- The first and the last row but two of V-RD2's faults: an empty stream, and 23 bytes of a 24-byte file. -/
theorem test_read_truncated : seen (exec .read State.reset) State.status = some 2 ∧
    (∀ s, s.slen = 7 → exec .read s = .next (s.setStatus 2)) :=
  ⟨by decide, fun s h => by simp only [exec, execRead, h]; rfl⟩

/-- P4: 8 × 16 with cell k = k to 16 × 8; rows 0 and 7 of the result. -/
theorem test_resize_rows_and_columns :
    seen (exec (.resize 16 8) { doc 8 16 .rows8 with pix := Memory.tabulate 128 (BitVec.ofNat 8) }) (fun t =>
      ((List.range 16).map (pixCell t), (List.range 16).map fun c => pixCell t (112 + c))) =
    some ([0, 1, 2, 3, 4, 5, 6, 7, 0, 0, 0, 0, 0, 0, 0, 0],
      [0x38, 0x39, 0x3A, 0x3B, 0x3C, 0x3D, 0x3E, 0x3F, 0, 0, 0, 0, 0, 0, 0, 0]) := by decide +kernel

/-- V-Z5: `RESIZE 0, 0` is GEOMETRY, and so is every RESIZE once the mode was set to Rows16 over a height of 8. -/
theorem test_resize_faults : seen (exec (.resize 0 0) State.reset) State.status = some 3 ∧
    seen (exec (.resize 16 16) (doc 8 8 .rows16)) State.status = some 3 := by decide

/-! ## The host port -/

/-- V-H1: RD REG:0 .. RD REG:6 after reset. -/
theorem test_register_reads : (List.range 7).map (readReg State.reset) = [0, 0, 8, 8, 8, 0, 0] := by decide

/-- V-H2: the ignored writes leave the reset state, and 4194304 is accepted. -/
theorem test_register_writes : writeReg (writeReg (writeReg State.reset 4 0x108) 5 4194305) 9 1 = State.reset ∧
    (writeReg State.reset 5 4194304).slen.toNat = 4194304 ∧ (writeReg State.reset 4 16).docMode = .rows16 := by decide

/-- V-H2: `WR PIX:64, 3` is ignored, `WR PIX:63, 0xFE` is read back. -/
theorem test_pixel_access : writePix State.reset 64 3 = State.reset ∧ readPix (writePix State.reset 63 0xFE) 63 = 0xFE := by decide

/-- R177, R176: byte 4194303 is the last; 4194304 reads 0. -/
theorem test_stream_access : readStrm (writeStrm State.reset 4194303 0xAB) 4194303 = 0xAB ∧
    writeStrm State.reset 4194304 1 = State.reset ∧ readStrm State.reset 4194304 = 0 := by decide

/-- R91: a length that fits 32 bits is written as it is, the largest one included. -/
theorem test_load_length : (loadLengthData 0).toNat = 0 ∧ (loadLengthData 4294967295).toNat = 4294967295 := by decide

/-- R91: the expansion of LOAD. -/
theorem test_load_line : lineActions (.load [0xAA, 0xBB]) = [.wrStrm 0 0xAA, .wrStrm 1 0xBB, .wrReg 5 2] := by decide

/-- A word placed for the next step is the next command, and the step runs it. -/
theorem test_step_runs_the_placed_word : step (State.reset.withFetchWord 32 0x01000805) = exec (.resize 8 16) State.reset := by rfl

/-! ## Memory -/

theorem test_canonical_form : Memory.wf pixUnlisted [(1, 2), (3, 4)] ∧ ¬ Memory.wf pixUnlisted [(1, 2), (1, 4)] ∧
    ¬ Memory.wf pixUnlisted [(1, 0)] := by decide

/-! ## Witnesses: the hypotheses of each obligation are met together -/

theorem test_witness_DecodeInvertsEncode : (Instr.decode 16 255 255).WellFormed ∧ (Instr.resize 0 4095).WellFormed := by decide
theorem test_witness_DecodedWordIsItsEncoding : decodeWord 0xFFFF1002 = .ok (.decode 16 255 255) := rfl
theorem test_witness_OperandFieldsAreBitSlices : decodeWord 0xFF001002 = .ok (.decode 16 0 255) ∧
    decodeWord 0xFFF00005 = .ok (.resize 0 4095) := ⟨rfl, rfl⟩
theorem test_witness_IllegalWordsSetStatusFive : (about [.wrReg 0 0x06]).pending = [.wrReg 0 0x06] ∧
    IllegalCase 0x06 ∧ IllegalCase 0x00 ∧ IllegalCase 0xFF ∧ IllegalCase 0x00000101 ∧ IllegalCase 0x80000004 ∧
    IllegalCase 0x01010702 ∧ IllegalCase 0x01011102 :=
  ⟨rfl, by decide, by decide, by decide, by decide, by decide, by decide, by decide⟩

/-- Words outside the three cases, beside each of them. -/
theorem test_witness_OthersDecode :
    ¬ IllegalCase 0x01 ∧ ¬ IllegalCase 0x05 ∧ ¬ IllegalCase 0x04 ∧ ¬ IllegalCase 0x01010802 ∧ ¬ IllegalCase 0x01011002 ∧
    ¬ IllegalCase 0xFFFFFF05 := ⟨by decide, by decide, by decide, by decide, by decide, by decide⟩
theorem test_witness_StepRunsTheDecodedCommand : (about [.wrReg 0 1]).pending = [.wrReg 0 1] ∧ decodeWord 1 = .ok .encode ∧
    (about [.wrReg 0 6]).pending = [.wrReg 0 6] ∧ decodeWord 6 = .error .reservedOpcode := ⟨rfl, rfl, rfl, rfl⟩
/-- For PackRowSplitsCellsIntoPlanes, UnpackRowJoinsPlanes and RowFunctionsAreInverse: the first and the last lane. -/
theorem test_witness_RowIndex : 0 < 8 ∧ 7 < 8 := by decide
theorem test_witness_EncodePacksTheDocument : DocWellFormed State.reset ∧ DocWellFormed (doc 4088 4088 .rows8) ∧
    ¬ DocWellFormed (doc 8 8 .rows16) ∧ ¬ DocWellFormed (doc 0 8 .rows8) := by decide
theorem test_witness_DecodeUnpacksTheStream :
    ((8 : Byte) = tag .rows8 ∧ (1 : Byte) ≠ 0 ∧ (stream [] 16).slen.toNat = (1 : Byte).toNat * (1 : Byte).toNat * rowCount .rows8 * 2) ∧
    ((16 : Byte) = tag .rows16 ∧ (255 : Byte) ≠ 0 ∧
      (stream [] 2080800).slen.toNat = (255 : Byte).toNat * (255 : Byte).toNat * rowCount .rows16 * 2) ∧
    ((17 : Byte) ≠ 8 ∧ (17 : Byte) ≠ 16) ∧ ((0 : Byte) = 0 ∨ (1 : Byte) = 0) ∧
    (stream [] 17).slen.toNat ≠ (1 : Byte).toNat * (1 : Byte).toNat * rowCount .rows8 * 2 := by decide
theorem test_witness_DecodeThenEncodeRestoresStream : (1 : Byte) ≠ 0 ∧ (255 : Byte) ≠ 0 ∧
    (stream [] 8160).slen.toNat = (1 : Byte).toNat * (255 : Byte).toNat * rowCount .rows16 * 2 := by decide
theorem test_witness_OneTileWidePacksAlikeInBothModes : (doc 8 16 .rows8).docW = 8 ∧ 0 < (doc 8 16 .rows8).docH.toNat ∧
    (doc 8 16 .rows8).docH.toNat % 16 = 0 := by decide
/-- For EncodeThenDecodeMasksCells and WriteThenReadMasksCells: both round trips through the stream, at the largest document a header can carry. -/
theorem test_witness_RepresentableDocument : DocWellFormed (doc 2040 4080 .rows16) ∧ (doc 2040 4080 .rows16).docW.toNat / 8 ≤ 255 ∧
    (doc 2040 4080 .rows16).docH.toNat / rowCount .rows16 ≤ 255 := by decide
theorem test_witness_WriteFramesTheDocument :
    (DocWellFormed (doc 2040 2040 .rows8) ∧ (doc 2040 2040 .rows8).docW.toNat / 8 ≤ 255 ∧
      (doc 2040 2040 .rows8).docH.toNat / rowCount .rows8 ≤ 255) ∧ ¬ DocWellFormed (doc 8 24 .rows16) ∧
    (DocWellFormed (doc 2048 8 .rows8) ∧ 255 < (doc 2048 8 .rows8).docW.toNat / 8) ∧
    (DocWellFormed (doc 8 2048 .rows8) ∧ 255 < (doc 8 2048 .rows8).docH.toNat / rowCount .rows8) := by decide
theorem test_witness_WriteRejectsWideAndTallDocuments : DocWellFormed (doc 8 2048 .rows8) ∧ DocWellFormed (doc 8 2048 .rows16) ∧
    ∃ t, exec .write State.reset = .next t ∧ t.status = 0 := ⟨by decide, by decide, _, rfl, rfl⟩
theorem test_witness_ReadLoadsTheFile :
    (HeaderAccepted (stream (head 1 16 1 3) 104) ∧ strmByte (stream (head 1 16 1 3) 104) 5 = 16 ∧
      8 + 1 * 3 * rowCount .rows16 * 2 = 104) ∧
    (HeaderAccepted oddModeFile ∧ strmByte oddModeFile 5 ≠ 16 ∧ 8 + 1 * 1 * rowCount .rows8 * 2 = oddModeFile.slen.toNat) :=
  ⟨⟨⟨by decide, ⟨rfl, rfl, rfl, rfl⟩, rfl, by decide, by decide⟩, rfl, rfl⟩,
   ⟨⟨by decide, ⟨rfl, rfl, rfl, rfl⟩, rfl, by decide, by decide⟩, by decide, by decide⟩⟩

/-- No byte is its own complement: a byte X0 different from M0. -/
theorem complement_ne (b : Byte) : ~~~b ≠ b := by revert b; decide

theorem test_witness_ReadFaultsInOrder :
    (stream [] 7).slen.toNat < 8 ∧
    (8 ≤ (stream [(0, ~~~Config.magic 0)] 8).slen.toNat ∧ ¬ MagicMatches (stream [(0, ~~~Config.magic 0)] 8)) ∧
    (8 ≤ (stream (head 2 8 1 1) 8).slen.toNat ∧ strmByte (stream (head 2 8 1 1) 8) 4 ≠ 1) ∧
    (MagicMatches (stream (head 1 8 0 1) 8) ∧ strmByte (stream (head 1 8 0 1) 8) 4 = 1 ∧ strmByte (stream (head 1 8 0 1) 8) 6 = 0) ∧
    (MagicMatches (stream (head 1 8 1 0) 24) ∧ strmByte (stream (head 1 8 1 0) 24) 4 = 1 ∧
      strmByte (stream (head 1 8 1 0) 24) 7 = 0) ∧
    (HeaderAccepted (stream (head 1 8 1 1) 23) ∧
      (stream (head 1 8 1 1) 23).slen.toNat < 8 + headerPayload (stream (head 1 8 1 1) 23)) :=
  ⟨by decide, ⟨by decide, fun h => complement_ne _ h.1⟩, ⟨by decide, by decide⟩, ⟨⟨rfl, rfl, rfl, rfl⟩, rfl, rfl⟩,
   ⟨⟨rfl, rfl, rfl, rfl⟩, rfl, rfl⟩, ⟨⟨by decide, ⟨rfl, rfl, rfl, rfl⟩, rfl, by decide, by decide⟩, by decide⟩⟩
theorem test_witness_ReadThenWriteReproducesFile : HeaderAccepted oddModeFile ∧ oddModeFile.slen.toNat = 8 + headerPayload oddModeFile :=
  ⟨⟨by decide, ⟨rfl, rfl, rfl, rfl⟩, rfl, by decide, by decide⟩, by decide⟩
theorem test_witness_ResizeKeepsTheOverlap : DocWellFormed State.reset ∧
    ValidGeometry State.reset.docMode (4088 : Geom).toNat (8 : Geom).toNat ∧
    (7 < (8 : Geom).toNat ∧ 4087 < (4088 : Geom).toNat) ∧ ¬ DocWellFormed (doc 8 8 .rows16) ∧
    ¬ ValidGeometry State.reset.docMode (4095 : Geom).toNat (8 : Geom).toNat ∧
    ¬ ValidGeometry (doc 8 16 .rows16).docMode (8 : Geom).toNat (24 : Geom).toNat := by decide

/-- The reset state meets the invariants. (It has no pending action and its document is well-formed.) -/
theorem reset_inv : Inv State.reset where
  pix_wf := by decide
  pix_exists := by decide
  strm_wf := by decide
  strm_exists := by decide
  docW_ok := by decide
  docH_ok := by decide
  slen_ok := by decide
  status_ok := by decide

/-- For ResizeToOwnSizeIsIdentity, GrowThenShrinkIsIdentity and TwoResizesKeepTheIntersection. -/
theorem test_witness_Resizes : Inv State.reset ∧ DocWellFormed State.reset ∧
    ValidGeometry State.reset.docMode (16 : Geom).toNat (16 : Geom).toNat ∧
    State.reset.docW.toNat ≤ (16 : Geom).toNat ∧ State.reset.docH.toNat ≤ (16 : Geom).toNat ∧
    ValidGeometry State.reset.docMode (8 : Geom).toNat (24 : Geom).toNat := ⟨reset_inv, by decide⟩
theorem test_witness_FaultsChangeOnlyStatus : (∃ t, exec .read State.reset = .next t ∧ t.status ≠ 0) ∧
    ∃ t, step (about [.wrReg 0 0]) = .next t ∧ t.status ≠ 0 := ⟨⟨_, rfl, by decide⟩, _, rfl, by decide⟩
/-- For CommandsReportOnlyTheirFaults and CommandsReachOnlyTheirSpaces; READ is the theorem before this one. -/
theorem test_witness_CommandsAnswer : (∃ t, exec .encode State.reset = .next t) ∧ (∃ t, exec (.decode 7 1 1) State.reset = .next t) ∧
    (∃ t, exec .write State.reset = .next t) ∧ (∃ t, exec (.resize 8 24) State.reset = .next t) :=
  ⟨⟨_, rfl⟩, ⟨_, rfl⟩, ⟨_, rfl⟩, ⟨_, rfl⟩⟩
theorem test_witness_CommandsReadNoByteBeyondSlen : ∃ t t', strmByte (stream [(20, 1)] 16) 20 ≠ strmByte (stream [(20, 2)] 16) 20 ∧
    (∀ k, k < 16 → strmByte (stream [(20, 1)] 16) k = strmByte (stream [(20, 2)] 16) k) ∧
    exec (.decode 8 1 1) (stream [(20, 1)] 16) = .next t ∧ exec (.decode 8 1 1) (stream [(20, 2)] 16) = .next t' :=
  ⟨_, _, by decide, fun k hk => by
    have h : ¬ 20 = k := by omega
    simp only [strmByte, stream, Memory.cellAt, if_neg h], rfl, rfl⟩
theorem test_witness_ReplacedDocumentIsWellFormed : ((.resize 8 16 : Instr) ≠ .encode ∧ (.resize 8 16 : Instr) ≠ .write) ∧
    ∃ t, exec (.resize 8 16) State.reset = .next t ∧ t.status = 0 := ⟨by decide, _, rfl, rfl⟩
theorem test_witness_LoadedCellsHaveTwoBits : ∃ t, exec (.decode 8 1 1) (stream [] 16) = .next t ∧ t.status = 0 := ⟨_, rfl, rfl⟩
theorem test_witness_RegisterReads : (about [.rdReg 5]).pending = [.rdReg 5] ∧ (about [.rdReg 6]).pending = [.rdReg 6] := by decide
theorem test_witness_RegisterWrites : (about [.wrReg 4 16]).pending = [.wrReg 4 16] ∧ (4 : Nat) ≠ 0 ∧ (0x108 : Word) ≠ 8 ∧
    (0x108 : Word) ≠ 16 ∧ (4194304 : Word).toNat ≤ 4194304 ∧ 4194304 < (4194305 : Word).toNat ∧ (6 : Nat) ≠ 4 ∧ (6 : Nat) ≠ 5 := by
  decide
theorem test_witness_MemoryReads : (about [.rdPix 63]).pending = [.rdPix 63] ∧
    63 < State.reset.docW.toNat * State.reset.docH.toNat ∧ State.reset.docW.toNat * State.reset.docH.toNat ≤ 64 ∧
    (about [.rdStrm 4194303]).pending = [.rdStrm 4194303] := by decide
/-- For PixelWriteStoresOneCell and StreamWriteStoresOneByte. -/
theorem test_witness_MemoryWrites : (about [.wrPix 63 0xFE]).pending = [.wrPix 63 0xFE] ∧
    63 < State.reset.docW.toNat * State.reset.docH.toNat ∧ State.reset.docW.toNat * State.reset.docH.toNat ≤ 64 ∧
    (about [.wrStrm 4194303 1]).pending = [.wrStrm 4194303 1] := by decide
/-- For ResetGivesTheDefaultDocument and ResetModeIsRowsEight. -/
theorem test_witness_Reset : ∃ t, (about [.reset]).pending = [.reset] ∧ step (about [.reset]) = .next t := ⟨_, rfl, rfl⟩
theorem test_witness_IdleHostLeavesTheBlockAlone : State.reset.pending = [] := rfl
theorem test_witness_OnlyCommandIssueChangesStatus : ∃ t, step (about [.wrReg 0 0]) = .next t ∧ t.status ≠ (about [.wrReg 0 0]).status :=
  ⟨_, rfl, by decide⟩
theorem test_witness_GeometryChanges : ∃ t, step (about [.wrReg 0 0x01000805]) = .next t ∧
    t.docH ≠ (about [.wrReg 0 0x01000805]).docH := ⟨_, rfl, by decide⟩
/-- For StepKeepsInvariants and MalformedExactlyWhenModeOutrunsHeight. -/
theorem test_witness_StepKeepsInvariants : Inv State.reset ∧ step State.reset = .next State.reset := ⟨reset_inv, rfl⟩
theorem test_witness_WellFormednessLost : ∃ t, Inv (about [.wrReg 4 16]) ∧ DocWellFormed (about [.wrReg 4 16]) ∧
    step (about [.wrReg 4 16]) = .next t ∧ ¬ DocWellFormed t :=
  ⟨_, ⟨reset_inv.1, reset_inv.2, reset_inv.3, reset_inv.4, reset_inv.5, reset_inv.6, reset_inv.7, reset_inv.8⟩, by decide, rfl,
   by decide⟩

end Sys2Proof.Tests
end

/-! ## The decoder, row by row of the opcode map (spec/30_encoding.md R80 to R86) -/

namespace Sys2Proof

/-! ### The fields of a word as numbers, and the masks that select them -/

theorem opField_eq_iff {w : Word} {v : Byte} : opField w = v ↔ w.toNat % 256 = v.toNat := by
  simp [opField, ← BitVec.toNat_inj]

theorem modeField_eq_iff {w : Word} {v : Byte} : modeField w = v ↔ w.toNat / 256 % 256 = v.toNat := by
  simp [modeField, ← BitVec.toNat_inj, Nat.shiftRight_eq_div_pow]

theorem reservedField_eq_zero_iff {w : Word} : reservedField w = 0 ↔ w.toNat / 256 = 0 := by
  have hw := w.isLt
  simp only [reservedField, ← BitVec.toNat_inj, BitVec.extractLsb'_toNat, Nat.shiftRight_eq_div_pow, BitVec.reduceToNat]
  omega

/-- The mask of formats T and R selects the bits of `op`. -/
theorem and_opMask_eq_iff (w : Word) (v : Byte) : w &&& 0x000000FF = v.setWidth 32 ↔ opField w = v := by
  have hmask : w.toNat &&& 255 = w.toNat % 256 := Nat.and_two_pow_sub_one_eq_mod w.toNat 8
  have hv : v.toNat % 2 ^ 32 = v.toNat := Nat.mod_eq_of_lt (by omega)
  rw [opField_eq_iff, ← BitVec.toNat_inj, BitVec.toNat_and, BitVec.toNat_setWidth, hv, ← hmask]
  rfl

/-- The mask of format N selects the bits of `op` and the reserved bits, which must be 0. -/
theorem and_fullMask_eq_iff (w : Word) (v : Byte) :
    w &&& 0xFFFFFFFF = v.setWidth 32 ↔ opField w = v ∧ reservedField w = 0 := by
  have hmask : w &&& 0xFFFFFFFF = w := BitVec.and_allOnes
  have hv : v.toNat % 2 ^ 32 = v.toNat := Nat.mod_eq_of_lt (by omega)
  rw [hmask, opField_eq_iff, reservedField_eq_zero_iff, ← BitVec.toNat_inj, BitVec.toNat_setWidth, hv]
  omega

/-- The mode field, as the opcode map's extra check on DECODE reads it. -/
theorem shift_and_modeMask_eq_iff (w : Word) (v : Byte) : w >>> 8 &&& 0xFF = v.setWidth 32 ↔ modeField w = v := by
  rw [and_opMask_eq_iff, opField_eq_iff, modeField_eq_iff, BitVec.toNat_ushiftRight, Nat.shiftRight_eq_div_pow]

/-! ### What the decoder answers -/

/-- Row by row of the opcode map: what a word must hold to be a given command (R81 to R83, R85). -/
inductive Decodes (w : Word) : Instr → Prop where
  | encode (op : opField w = 1) (res : reservedField w = 0) : Decodes w .encode
  | decode (op : opField w = 2) (mode : modeField w = 8 ∨ modeField w = 16) :
      Decodes w (.decode (modeField w) (txField w) (tyField w))
  | write (op : opField w = 3) (res : reservedField w = 0) : Decodes w .write
  | read (op : opField w = 4) (res : reservedField w = 0) : Decodes w .read
  | resize (op : opField w = 5) : Decodes w (.resize (newwField w) (newhField w))

theorem decodeFormatN_eq_ok_iff {w : Word} {i j : Instr} : decodeFormatN w i = .ok j ↔ reservedField w = 0 ∧ i = j := by
  unfold decodeFormatN
  split
  · next h => exact ⟨fun e => ⟨h, Except.ok.inj e⟩, fun ⟨_, e⟩ => congrArg Except.ok e⟩
  · next h => exact ⟨nofun, fun ⟨h', _⟩ => absurd h' h⟩

theorem decodeFormatT_eq_ok_iff {w : Word} {j : Instr} : decodeFormatT w = .ok j ↔
    (modeField w = 8 ∨ modeField w = 16) ∧ .decode (modeField w) (txField w) (tyField w) = j := by
  unfold decodeFormatT
  split
  · next h => exact ⟨fun e => ⟨h, Except.ok.inj e⟩, fun ⟨_, e⟩ => congrArg Except.ok e⟩
  · next h => exact ⟨nofun, fun ⟨h', _⟩ => absurd h' h⟩

/-- The decoder answers a command exactly when the word stands in that command's row. -/
theorem decodeWord_eq_ok_iff {w : Word} {i : Instr} : decodeWord w = .ok i ↔ Decodes w i := by
  constructor
  · intro h
    unfold decodeWord at h
    split_ifs at h with h1 h2 h3 h4 h5
    · obtain ⟨res, rfl⟩ := decodeFormatN_eq_ok_iff.1 h
      exact .encode h1 res
    · obtain ⟨mode, rfl⟩ := decodeFormatT_eq_ok_iff.1 h
      exact .decode h2 mode
    · obtain ⟨res, rfl⟩ := decodeFormatN_eq_ok_iff.1 h
      exact .write h3 res
    · obtain ⟨res, rfl⟩ := decodeFormatN_eq_ok_iff.1 h
      exact .read h4 res
    · cases h
      exact .resize h5
  · intro h
    cases h with
    | encode op res | write op res | read op res => simp [decodeWord, op, decodeFormatN_eq_ok_iff, res]
    | decode op mode => simpa [decodeWord, op] using decodeFormatT_eq_ok_iff.2 ⟨mode, rfl⟩
    | resize op => simp [decodeWord, op, decodeFormatR]

end Sys2Proof

namespace Sys2Proof.Machine

/-- The words of the three cases of R86 are exactly those that are no command. -/
theorem exists_decodes_iff (w : Word) : (∃ i, Decodes w i) ↔ ¬ IllegalCase w := by
  constructor
  · rintro ⟨i, h⟩
    cases h with
    | encode op res | write op res | read op res =>
      simp only [opField_eq_iff, reservedField_eq_zero_iff, BitVec.reduceToNat] at op res
      omega
    | decode op mode =>
      simp only [opField_eq_iff, modeField_eq_iff, BitVec.reduceToNat] at op mode
      omega
    | resize op =>
      simp only [opField_eq_iff, BitVec.reduceToNat] at op
      omega
  · intro h
    obtain e | e | e | e | e : w.toNat % 256 = 1 ∨ w.toNat % 256 = 2 ∨ w.toNat % 256 = 3 ∨ w.toNat % 256 = 4 ∨
      w.toNat % 256 = 5 := by omega
    · exact ⟨_, .encode (opField_eq_iff.2 e) (reservedField_eq_zero_iff.2 (by omega))⟩
    · have hm : w.toNat / 256 % 256 = 8 ∨ w.toNat / 256 % 256 = 16 := by omega
      exact ⟨_, .decode (opField_eq_iff.2 e) (hm.imp modeField_eq_iff.2 modeField_eq_iff.2)⟩
    · exact ⟨_, .write (opField_eq_iff.2 e) (reservedField_eq_zero_iff.2 (by omega))⟩
    · exact ⟨_, .read (opField_eq_iff.2 e) (reservedField_eq_zero_iff.2 (by omega))⟩
    · exact ⟨_, .resize (opField_eq_iff.2 e)⟩

theorem exists_decodeWord_ok_iff (w : Word) : (∃ i, decodeWord w = .ok i) ↔ ¬ IllegalCase w := by
  simp only [decodeWord_eq_ok_iff, exists_decodes_iff]

theorem issueCommand_of_illegalCase (s : State) {w : Word} (h : IllegalCase w) :
    issueCommand s w = .next (s.setStatus 5) := by
  unfold issueCommand
  split
  · next i hi => exact absurd h ((exists_decodeWord_ok_iff w).1 ⟨i, hi⟩)
  · exact raise_eq .illegal s

/-- Settles O3: the decoder's rows (`decodeWord_eq_ok_iff`) test the same fields as the masks of the opcode map. -/
theorem opcodeMapSelectsByMaskAndMatch : Obligations.OpcodeMapSelectsByMaskAndMatch := by
  intro w
  simp only [decodeWord_eq_ok_iff]
  refine ⟨Iff.trans ?_ (and_fullMask_eq_iff w 1).symm,
    Iff.trans ?_ (and_congr (and_opMask_eq_iff w 2)
      (or_congr (shift_and_modeMask_eq_iff w 8) (shift_and_modeMask_eq_iff w 16))).symm,
    Iff.trans ?_ (and_fullMask_eq_iff w 3).symm, Iff.trans ?_ (and_fullMask_eq_iff w 4).symm,
    Iff.trans ?_ (and_opMask_eq_iff w 5).symm⟩
  · exact ⟨fun | .encode op res => ⟨op, res⟩, fun ⟨op, res⟩ => .encode op res⟩
  · exact ⟨fun ⟨_, _, _, .decode op mode⟩ => ⟨op, mode⟩, fun ⟨op, mode⟩ => ⟨_, _, _, .decode op mode⟩⟩
  · exact ⟨fun | .write op res => ⟨op, res⟩, fun ⟨op, res⟩ => .write op res⟩
  · exact ⟨fun | .read op res => ⟨op, res⟩, fun ⟨op, res⟩ => .read op res⟩
  · exact ⟨fun ⟨_, _, .resize op⟩ => op, fun op => ⟨_, _, .resize op⟩⟩

/-- Settles O5: the three cases are exactly the words that decode to nothing, and those raise ILLEGAL. -/
theorem illegalWordsSetStatusFiveOthersDecode : Obligations.IllegalWordsSetStatusFiveOthersDecode := by
  refine ⟨fun s w rest hp hw => ?_, fun w hw => (exists_decodeWord_ok_iff w).2 hw⟩
  calc step s = issueCommand (s.setPending rest) w := step_cons hp
    _ = .next ((s.setPending rest).setStatus 5) := issueCommand_of_illegalCase _ hw

end Sys2Proof.Machine

namespace Sys2Proof.Machine

/-- A binary digit of a bit vector's number, as the row functions' statements write it, is its bit. -/
theorem toNat_div_two_pow_mod_two {w : Nat} (x : BitVec w) (k : Nat) :
    x.toNat / 2 ^ k % 2 = (x.getLsbD k).toNat := by
  rw [← Nat.toNat_testBit, BitVec.testBit_toNat]

/-- A bit vector with no bit from 2 upwards is the number its two low bits write. -/
theorem toNat_eq_of_getLsbD_eq_false {w : Nat} {x : BitVec w} (h : ∀ b, 2 ≤ b → x.getLsbD b = false) :
    x.toNat = (x.getLsbD 0).toNat + 2 * (x.getLsbD 1).toNat := by
  have hlt : x.toNat < 2 ^ 2 := Nat.lt_pow_two_of_testBit _ fun b hb => (BitVec.testBit_toNat x).trans (h b hb)
  rw [← toNat_div_two_pow_mod_two, ← toNat_div_two_pow_mod_two]
  omega

/-- An unpacked cell has no bit from 2 upwards (spec/40_rowpack.md R111). -/
theorem unpackRow_getLsbD_eq_false (lo hi : Byte) (i : Nat) {b : Nat} (hb : 2 ≤ b) :
    (unpackRow lo hi i).getLsbD b = false := by
  have h0 : b ≠ 0 := by omega
  have h1 : b ≠ 1 := by omega
  simp [unpackRow_bit, h0, h1]

/-- Settles O8: each plane's bit is the cell's bit (`packRow_lo_bit`, `packRow_hi_bit`), read as a binary digit. -/
theorem packRowSplitsCellsIntoPlanes : Obligations.PackRowSplitsCellsIntoPlanes := by
  intro p i hi
  have hlo : (p i).toNat % 2 = ((p i).getLsbD 0).toNat := by simpa using toNat_div_two_pow_mod_two (p i) 0
  have hhi : (p i).toNat / 2 % 2 = ((p i).getLsbD 1).toNat := toNat_div_two_pow_mod_two (p i) 1
  simp only [toNat_div_two_pow_mod_two, hlo, hhi, packRow_lo_bit p i hi, packRow_hi_bit p i hi, and_self]

/-- Settles O9: a cell has its two low bits only, and they are bit 7-i of the two planes (`unpackRow_bit`). -/
theorem unpackRowJoinsPlanes : Obligations.UnpackRowJoinsPlanes := by
  intro lo hi i _
  calc (unpackRow lo hi i).toNat
      = ((unpackRow lo hi i).getLsbD 0).toNat + 2 * ((unpackRow lo hi i).getLsbD 1).toNat :=
        toNat_eq_of_getLsbD_eq_false fun _ => unpackRow_getLsbD_eq_false lo hi i
    _ = (lo.getLsbD (7 - i)).toNat + 2 * (hi.getLsbD (7 - i)).toNat := by
        rw [unpackRow_bit, unpackRow_bit]; simp
    _ = lo.toNat / 2 ^ (7 - i) % 2 + 2 * (hi.toNat / 2 ^ (7 - i) % 2) := by
        simp only [toNat_div_two_pow_mod_two]

end Sys2Proof.Machine

namespace Sys2Proof.Machine

/-! ## The tile codec (spec/41_tile_codec.md): ENCODE and DECODE -/

/-! ### The stream that ENCODE and WRITE leave -/

/-- The packed length, a quarter byte per cell, counted by tiles (spec/20_memory.md R57). -/
theorem cells_div_four_eq_packedLength {m : TileMode} {w h : Nat} (hg : ValidGeometry m w h) :
    w * h / 4 = packedLength m (w / 8) (h / rowCount m) := by
  obtain ⟨-, hw, -, hh⟩ := hg
  obtain ⟨tx, rfl⟩ := Nat.dvd_of_mod_eq_zero hw
  obtain ⟨ty, rfl⟩ := Nat.dvd_of_mod_eq_zero hh
  rw [Nat.mul_div_cancel_left _ (by decide), Nat.mul_div_cancel_left _ (rowCount_pos m), packedLength]
  exact Nat.div_eq_of_eq_mul_right (by decide) (by ring)

/-- Every packed stream fits STRM with room for the header (spec/41_tile_codec.md R123). -/
theorem packed_add_hdrLen_le_strmCap (w h : Geom) : hdrLen + w.toNat * h.toNat / 4 ≤ strmCap := by
  have hm : w.toNat * h.toNat ≤ 4095 * 4095 := Nat.mul_le_mul (Nat.le_of_lt_succ w.isLt) (Nat.le_of_lt_succ h.isLt)
  unfold hdrLen strmCap
  omega

theorem storeStream_slen_toNat (s : State) {n : Nat} (f : Nat → Byte) (hn : n ≤ strmCap) :
    (storeStream s n f).slen.toNat = n := by
  rw [storeStream_slen, BitVec.toNat_ofNat, Nat.mod_eq_of_lt (Nat.lt_of_le_of_lt hn (by decide))]

/-- A stored stream whose bytes from `base` on are EncodeFn's holds the packed tiles from there on (spec/41_tile_codec.md R121). -/
theorem holdsPackedTiles_storeStream {s : State} (wf : DocWellFormed s) {base n : Nat} {f : Nat → Byte}
    (hn : base + s.docW.toNat * s.docH.toNat / 4 ≤ n)
    (hf : ∀ k, f (base + k) = encodeByte (pixCell s) s.docW.toNat (rowCount s.docMode) k) :
    HoldsPackedTiles s (storeStream s n f) base := by
  intro tyi txi r hy hx hr
  have hbyte : ∀ p, p < 2 →
      strmByte (storeStream s n f) (base + tileOff (s.docW.toNat / 8) (rowCount s.docMode) tyi txi r p) =
        encodeByte (pixCell s) s.docW.toNat (rowCount s.docMode)
          (tileOff (s.docW.toNat / 8) (rowCount s.docMode) tyi txi r p) := by
    intro p hp
    have hlt := tileOff_lt hy hx hr hp
    rw [← packedLength, ← cells_div_four_eq_packedLength wf] at hlt
    rw [strmByte_storeStream, if_pos (Nat.lt_of_lt_of_le (Nat.add_lt_add_left hlt base) hn), hf]
  rw [hbyte 0 (by decide), hbyte 1 (by decide), encodeByte_tileOff _ hx hr (by decide),
    encodeByte_tileOff _ hx hr (by decide)]
  rfl

/-! ### The document that DECODE and READ leave -/

theorem loadDocument_docW_toNat (s : State) (m : TileMode) {tx : Nat} (ty base : Nat) (hx : tx < 256) :
    (loadDocument s m tx ty base).docW.toNat = tx * 8 := by
  rw [loadDocument_docW, BitVec.toNat_ofNat, Nat.mod_eq_of_lt (by omega)]

theorem loadDocument_docH_toNat (s : State) (m : TileMode) (tx : Nat) {ty : Nat} (base : Nat) (hy : ty < 256) :
    (loadDocument s m tx ty base).docH.toNat = ty * rowCount m := by
  have hh : ty * rowCount m ≤ 255 * 16 := Nat.mul_le_mul (Nat.le_of_lt_succ hy) (rowCount_le m)
  rw [loadDocument_docH, BitVec.toNat_ofNat, Nat.mod_eq_of_lt (by omega)]

/-- A loaded document of at least one tile is well-formed (spec/10_state.md R34 (f)). -/
theorem docWellFormed_loadDocument (s : State) (m : TileMode) {tx ty : Nat} (base : Nat) (hx0 : 0 < tx) (hy0 : 0 < ty)
    (hx : tx < 256) (hy : ty < 256) : DocWellFormed (loadDocument s m tx ty base) := by
  unfold DocWellFormed
  rw [loadDocument_docMode, loadDocument_docW_toNat s m ty base hx, loadDocument_docH_toNat s m tx base hy]
  exact ⟨Nat.mul_pos hx0 (by decide), Nat.mul_mod_left _ _, Nat.mul_pos hy0 (rowCount_pos m), Nat.mul_mod_left _ _⟩

/-- A load replaces PIX wholesale: only the cells of the new canvas are listed (spec/10_state.md R31). -/
theorem noCellBeyond_loadDocument (s : State) (m : TileMode) {tx ty : Nat} (base : Nat) (hx : tx < 256) (hy : ty < 256) :
    NoCellBeyond (loadDocument s m tx ty base) := by
  intro c hc
  rw [pixCount, loadDocument_docW_toNat s m ty base hx, loadDocument_docH_toNat s m tx base hy]
  exact (Memory.mem_tabulate hc).1

/-- A load leaves the document DecodeFn gives on the bytes from `base` on (spec/41_tile_codec.md R122). -/
theorem holdsUnpackedTiles_loadDocument (s : State) (m : TileMode) {tx ty : Nat} (base : Nat) (hx : tx < 256) (hy : ty < 256) :
    HoldsUnpackedTiles s (loadDocument s m tx ty base) m tx ty base := by
  refine ⟨loadDocument_docW_toNat s m ty base hx, loadDocument_docH_toNat s m tx base hy, rfl,
    noCellBeyond_loadDocument s m base hx hy, fun tyi txi r i hyi hxi hr hi => ?_⟩
  rw [pixCell_loadDocument, if_pos (pixIdx_lt hyi hxi hr hi), decodeCell_pixIdx _ hxi hr hi]

/-! ### The faults of ENCODE and DECODE -/

theorem exec_encode_of_not_docWellFormed {s : State} (h : ¬ DocWellFormed s) : exec .encode s = .next (s.setStatus 3) := by
  unfold exec execEncode
  exact if_pos h

theorem exec_decode_of_reserved_tag (s : State) {mode : Byte} (tx ty : Byte) (h8 : mode ≠ 8) (h16 : mode ≠ 16) :
    exec (.decode mode tx ty) s = .next (s.setStatus 5) := by
  have hnone : modeOfTag mode = none := by rw [modeOfTag, if_neg h8, if_neg h16]
  simp only [exec, execDecode, hnone]
  exact raise_eq .illegal s

theorem exec_decode_of_bad_geometry {s : State} {m : TileMode} {tx ty : Byte}
    (h : (tx = 0 ∨ ty = 0) ∨ s.slen.toNat ≠ packedLength m tx.toNat ty.toNat) :
    exec (.decode (tag m) tx ty) s = .next (s.setStatus 3) := by
  simp only [exec, execDecode, modeOfTag_tag]
  split_ifs with hz hl
  · exact raise_eq .geometry s
  · exact raise_eq .geometry s
  · exact absurd h (not_or.2 ⟨hz, hl⟩)

/-- Settles O11: ENCODE's answer is the stored stream of EncodeFn (`holdsPackedTiles_storeStream`), as long as its packed length. -/
theorem encodePacksTheDocument : Obligations.EncodePacksTheDocument := by
  refine fun s => ⟨fun wf => ?_, exec_encode_of_not_docWellFormed⟩
  have hcap : s.docW.toNat * s.docH.toNat / 4 ≤ strmCap :=
    Nat.le_trans (Nat.le_add_left _ _) (packed_add_hdrLen_le_strmCap s.docW s.docH)
  have hlen := storeStream_slen_toNat s (encodeByte (pixCell s) s.docW.toNat (rowCount s.docMode)) hcap
  have htiles := holdsPackedTiles_storeStream wf (Nat.zero_add _).le fun k => by rw [Nat.zero_add]
  refine ⟨_, exec_of_succeeds (.encode wf), rfl, hlen, hlen.le.trans hcap, htiles, fun k hk => ?_, rfl,
    ⟨fun _ => rfl, rfl, rfl, rfl⟩, rfl, rfl, rfl⟩
  rw [State.setStatus_slen, hlen] at hk
  rw [strmByte_setStatus, strmByte_storeStream, if_neg (Nat.not_lt.2 hk)]

/-- Settles O12: DECODE's answer is the loaded document (`holdsUnpackedTiles_loadDocument`), or one of its two faults. -/
theorem decodeUnpacksTheStream : Obligations.DecodeUnpacksTheStream := by
  refine fun s mode tx ty => ⟨?_, exec_decode_of_reserved_tag s tx ty, ?_, ?_⟩
  · rintro m rfl hx hy hlen
    exact ⟨_, exec_of_succeeds (.decode m tx ty hx hy hlen), rfl, holdsUnpackedTiles_loadDocument s m 0 tx.isLt ty.isLt,
      docWellFormed_loadDocument s m 0 (BitVec.toNat_pos_of_ne_zero hx) (BitVec.toNat_pos_of_ne_zero hy) tx.isLt ty.isLt,
      rfl, ⟨fun _ => rfl, rfl⟩, rfl, rfl, rfl⟩
  · rintro m rfl hz
    exact exec_decode_of_bad_geometry (.inl hz)
  · rintro m rfl hlen
    exact exec_decode_of_bad_geometry (.inr hlen)

end Sys2Proof.Machine

namespace Sys2Proof.Machine

/-! ## The bitstream framer (spec/42_framer.md): WRITE and READ -/

theorem codeValue_eq_zero_iff (f : Code) : codeValue f = 0 ↔ f = .ok := by cases f <;> decide

/-- A command that reports STATUS 0 has succeeded: every fault has a code of its own (spec/10_state.md R26). -/
theorem succeeds_of_status_eq_zero {s t : State} {i : Instr} (he : exec i s = .next t) (h0 : t.status = 0) :
    ∃ u, Succeeds s i u ∧ t = u.setStatus 0 := by
  rcases exec_cases i s with ⟨u, hu, hn⟩ | ⟨f, hf, hn⟩
  · exact ⟨u, hu, Host.Outcome.next.inj (he.symm.trans hn)⟩
  · cases Host.Outcome.next.inj (he.symm.trans hn)
    exact absurd ((codeValue_eq_zero_iff f).1 h0) hf

/-! ### The file that WRITE leaves -/

theorem fileByte_of_lt_hdrLen (s : State) {k : Nat} (hk : k < hdrLen) :
    fileByte s k = (header s.docMode (s.docW.toNat / 8) (s.docH.toNat / rowCount s.docMode)).getD k 0 :=
  if_pos hk

theorem fileByte_hdrLen_add (s : State) (k : Nat) :
    fileByte s (hdrLen + k) = encodeByte (pixCell s) s.docW.toNat (rowCount s.docMode) k := by
  rw [fileByte, if_neg (Nat.not_lt.2 (Nat.le_add_right hdrLen k)), Nat.add_sub_cancel_left]

/-- The first eight bytes of a stored file are its header (spec/42_framer.md R140). -/
theorem strmByte_storeStream_fileByte (s : State) (n : Nat) {k : Nat} (hk : k < hdrLen) :
    strmByte (storeStream s (hdrLen + n) (fileByte s)) k =
      (header s.docMode (s.docW.toNat / 8) (s.docH.toNat / rowCount s.docMode)).getD k 0 := by
  rw [strmByte_storeStream, if_pos (Nat.lt_add_right n hk), fileByte_of_lt_hdrLen s hk]

/-- A count a header byte can carry is stored unwrapped (spec/42_framer.md R142). -/
theorem toNat_ofNat_of_le_tcMax {c : Nat} (hc : c ≤ tcMax) : (BitVec.ofNat 8 c).toNat = c :=
  Nat.mod_eq_of_lt (Nat.lt_succ_of_le hc)

/-- A stored file's header counts the document's own tiles (spec/42_framer.md R142). -/
theorem tileCounts_storeStream_fileByte {s : State} (n : Nat) (hx : s.docW.toNat / 8 ≤ tcMax)
    (hy : s.docH.toNat / rowCount s.docMode ≤ tcMax) :
    (strmByte (storeStream s (hdrLen + n) (fileByte s)) 6).toNat = s.docW.toNat / 8 ∧
      (strmByte (storeStream s (hdrLen + n) (fileByte s)) 7).toNat = s.docH.toNat / rowCount s.docMode := by
  rw [strmByte_storeStream_fileByte s n (by decide), strmByte_storeStream_fileByte s n (by decide)]
  exact ⟨toNat_ofNat_of_le_tcMax hx, toNat_ofNat_of_le_tcMax hy⟩

/-- The packed tiles of the largest document a header can carry. -/
theorem packedLength_le {m : TileMode} {tx ty : Nat} (hx : tx ≤ tcMax) (hy : ty ≤ tcMax) :
    packedLength m tx ty ≤ 2080800 :=
  Nat.mul_le_mul_right 2 (Nat.mul_le_mul (Nat.mul_le_mul hx hy) (rowCount_le m))

/-! ### The faults of WRITE, and its limit in pixels -/

theorem exec_write_of_not_docWellFormed {s : State} (h : ¬ DocWellFormed s) : exec .write s = .next (s.setStatus 3) := by
  unfold exec execWrite
  exact if_pos h

theorem exec_write_of_count_above_tcMax {s : State} (wf : DocWellFormed s)
    (hc : tcMax < s.docW.toNat / 8 ∨ tcMax < s.docH.toNat / rowCount s.docMode) :
    exec .write s = .next (s.setStatus 4) := by
  unfold exec execWrite
  exact (if_neg (not_not.2 wf)).trans (if_pos hc)

/-- A well-formed document is rejected for a count above 255 and for nothing else. -/
theorem exec_write_eq_unrepresentable_iff {s : State} (wf : DocWellFormed s) :
    exec .write s = .next (s.setStatus 4) ↔
      tcMax < s.docW.toNat / 8 ∨ tcMax < s.docH.toNat / rowCount s.docMode := by
  refine ⟨fun he => by_contra fun hc => ?_, exec_write_of_count_above_tcMax wf⟩
  obtain ⟨hx, hy⟩ := not_or.1 hc
  have hok := exec_of_succeeds (.write wf (Nat.not_lt.1 hx) (Nat.not_lt.1 hy))
  have hstatus : (4 : Byte) = 0 := congrArg State.status (Host.Outcome.next.inj (he.symm.trans hok))
  exact absurd hstatus (by decide)

/-- The limit on the rows of tiles, in pixels: no height of 12 bits exceeds it in Rows16 (spec/42_framer.md R142). -/
theorem tcMax_lt_div_rowCount_iff (m : TileMode) (h : Geom) :
    tcMax < h.toNat / rowCount m ↔ m = .rows8 ∧ 2048 ≤ h.toNat := by
  have hlt := h.isLt
  cases m with
  | rows8 => simp only [rowCount, tcMax, true_and]; omega
  | rows16 => simp only [rowCount, tcMax, reduceCtorEq, false_and, iff_false]; omega

/-! ### The statements on WRITE -/

/-- Settles O17: WRITE's answer is the stored file, the header (`strmByte_storeStream_fileByte`) and then the packed tiles
(`holdsPackedTiles_storeStream`), or one of its two faults. -/
theorem writeFramesTheDocument : Obligations.WriteFramesTheDocument := by
  refine fun s => ⟨fun wf hx hy => ?_, exec_write_of_not_docWellFormed, exec_write_of_count_above_tcMax⟩
  have hlen := storeStream_slen_toNat s (fileByte s) (packed_add_hdrLen_le_strmCap s.docW s.docH)
  have hmax : hdrLen + s.docW.toNat * s.docH.toNat / 4 ≤ 2080808 := by
    rw [cells_div_four_eq_packedLength wf]
    exact Nat.add_le_add_left (packedLength_le hx hy) hdrLen
  have hhead {k : Nat} (hk : k < hdrLen) := strmByte_storeStream_fileByte s (s.docW.toNat * s.docH.toNat / 4) hk
  obtain ⟨htx, hty⟩ := tileCounts_storeStream_fileByte (s.docW.toNat * s.docH.toNat / 4) hx hy
  refine ⟨_, exec_of_succeeds (.write wf hx hy), rfl, hlen, hlen.le.trans hmax, hhead (by decide), hhead (by decide),
    hhead (by decide), hhead (by decide), hhead (by decide), hhead (by decide), htx, hty,
    holdsPackedTiles_storeStream wf (Nat.le_refl _) (fileByte_hdrLen_add s), fun k hk => ?_, rfl,
    ⟨fun _ => rfl, rfl, rfl, rfl⟩, rfl, rfl, rfl⟩
  rw [State.setStatus_slen, hlen] at hk
  rw [strmByte_setStatus, strmByte_storeStream, if_neg (Nat.not_lt.2 hk)]

/-- Settles O18: a count exceeds 255 exactly from 2048 pixels on (`tcMax_lt_div_rowCount_iff`), and WRITE succeeds only below, where
the header's counts are those of the document (O17). -/
theorem writeRejectsWideAndTallDocuments : Obligations.WriteRejectsWideAndTallDocuments := by
  refine ⟨fun s wf => ?_, fun s t he h0 => ?_⟩
  · rw [exec_write_eq_unrepresentable_iff wf, tcMax_lt_div_rowCount_iff]
    exact or_congr_left (Nat.le_div_iff_mul_le (by decide))
  · obtain ⟨u, hu, rfl⟩ := succeeds_of_status_eq_zero he h0
    cases hu with
    | write wf hx hy =>
      obtain ⟨-, hw, -, hh⟩ := wf
      obtain ⟨htx, hty⟩ := tileCounts_storeStream_fileByte (s.docW.toNat * s.docH.toNat / 4) hx hy
      rw [strmByte_setStatus, strmByte_setStatus, htx, hty]
      exact ⟨Nat.div_mul_cancel (Nat.dvd_of_mod_eq_zero hw), Nat.div_mul_cancel (Nat.dvd_of_mod_eq_zero hh)⟩

/-! ### The checks of READ, in their order -/

/-- The mode byte selects Rows16 exactly when it is 16 (spec/42_framer.md R146). -/
theorem eq_modeOfHeader {m : TileMode} {v : Byte} (h : m = .rows16 ↔ v = 16) : m = modeOfHeader v := by
  by_cases hv : v = 16
  · rw [modeOfHeader, if_pos hv, h.2 hv]
  · rw [modeOfHeader, if_neg hv]
    cases m with
    | rows8 => rfl
    | rows16 => exact absurd (h.1 rfl) hv

theorem exec_read_of_short_header {s : State} (h8 : s.slen.toNat < 8) : exec .read s = .next (s.setStatus 2) := by
  unfold exec execRead
  exact if_pos h8

theorem exec_read_of_unrecognized {s : State} (h8 : 8 ≤ s.slen.toNat) (h : ¬ MagicMatches s ∨ strmByte s 4 ≠ 1) :
    exec .read s = .next (s.setStatus 1) := by
  simp only [exec, execRead, if_neg (Nat.not_lt.2 h8)]
  by_cases hm : MagicMatches s
  · have hv : strmByte s 4 ≠ versionByte := h.resolve_left (not_not.2 hm)
    exact (if_neg (not_not.2 hm)).trans (if_pos hv)
  · exact if_pos hm

/-- Past the checks of length, magic and version, READ judges the counts and then the payload (spec/42_framer.md R147, R148). -/
theorem exec_read_of_recognized {s : State} (h8 : 8 ≤ s.slen.toNat) (hm : MagicMatches s) (hv : strmByte s 4 = 1) :
    exec .read s =
      if strmByte s 6 = 0 ∨ strmByte s 7 = 0 then raise .geometry s
      else if s.slen.toNat < 8 + headerPayload s then raise .truncated s
      else done (loadDocument s (modeOfHeader (strmByte s 5)) (strmByte s 6).toNat (strmByte s 7).toNat hdrLen) := by
  have hver : strmByte s 4 = versionByte := hv
  have hzero (v : Byte) : v.toNat = 0 ↔ v = 0 := BitVec.toNat_inj (y := 0)
  simp only [exec, execRead, if_neg (Nat.not_lt.2 h8), if_neg (not_not.2 hm), if_neg (not_not.2 hver), ne_eq,
    hzero]
  rfl

/-! ### The statements on READ -/

/-- Settles O19: READ's answer is the loaded document (`holdsUnpackedTiles_loadDocument`) in the mode of byte 5. -/
theorem readLoadsTheFile : Obligations.ReadLoadsTheFile := by
  intro s m hd hm hlen
  obtain rfl := eq_modeOfHeader hm
  have hread := exec_of_succeeds (.read hd hlen)
  obtain ⟨-, -, -, hx, hy⟩ := hd
  exact ⟨_, hread, rfl, holdsUnpackedTiles_loadDocument s _ hdrLen (strmByte s 6).isLt (strmByte s 7).isLt,
    docWellFormed_loadDocument s _ hdrLen (BitVec.toNat_pos_of_ne_zero hx) (BitVec.toNat_pos_of_ne_zero hy)
      (strmByte s 6).isLt (strmByte s 7).isLt,
    rfl, ⟨fun _ => rfl, rfl⟩, rfl, rfl, rfl⟩

/-- Settles O20: each check of READ is reached only when the ones before it are passed. -/
theorem readFaultsInOrder : Obligations.ReadFaultsInOrder := by
  refine fun s => ⟨exec_read_of_short_header, fun h8 hm => exec_read_of_unrecognized h8 (.inl hm),
    fun h8 hv => exec_read_of_unrecognized h8 (.inr hv), fun h8 hm hv hz => ?_, fun hd hshort => ?_⟩
  · rw [exec_read_of_recognized h8 hm hv, if_pos hz]
    exact raise_eq .geometry s
  · obtain ⟨h8, hm, hv, hx, hy⟩ := hd
    rw [exec_read_of_recognized h8 hm hv, if_neg (not_or.2 ⟨hx, hy⟩), if_pos hshort]
    exact raise_eq .truncated s

end Sys2Proof.Machine

namespace Sys2Proof.Machine

/-! ## The canvas buffer resizer (spec/43_resizer.md): RESIZE -/

/-- A RESIZE lists no cell beyond the new canvas, whatever the old memory listed (spec/10_state.md R31). -/
theorem noCellBeyond_relocate_resizePlace (s : State) (m : Memory) (ow oh : Nat) (w h : Geom) :
    NoCellBeyond (s.setBuffer (m.relocate (resizePlace ow oh w.toNat h.toNat)) w h) := by
  intro c hc
  obtain ⟨k, hk, -⟩ := Memory.mem_relocate hc
  exact resizePlace_lt hk

/-- Both checks of RESIZE raise GEOMETRY, so their order does not show (spec/43_resizer.md R161). -/
theorem exec_resize_of_bad_geometry {s : State} {w h : Geom}
    (hbad : ¬ DocWellFormed s ∨ ¬ ValidGeometry s.docMode w.toNat h.toNat) :
    exec (.resize w h) s = .next (s.setStatus 3) := by
  simp only [exec, execResize]
  by_cases wf : DocWellFormed s
  · exact (if_neg (not_not.2 wf)).trans (if_pos (hbad.resolve_left (not_not.2 wf)))
  · exact if_pos wf

/-- Settles O23: RESIZE's answer is the relocated buffer, read cell by cell (`relocate_resizePlace`), or its one fault. -/
theorem resizeKeepsTheOverlap : Obligations.ResizeKeepsTheOverlap := by
  refine fun s w h => ⟨fun wf new => ?_, fun hold => exec_resize_of_bad_geometry (.inl hold),
    fun hnew => exec_resize_of_bad_geometry (.inr hnew)⟩
  exact ⟨_, exec_of_succeeds (.resize w h wf new), rfl, rfl, rfl, rfl,
    fun r c _ hc => relocate_resizePlace s.pix s.docW.toNat s.docH.toNat w.toNat h.toNat r c hc,
    noCellBeyond_relocate_resizePlace s s.pix s.docW.toNat s.docH.toNat w h, rfl, ⟨fun _ => rfl, rfl⟩, rfl, rfl, rfl⟩

end Sys2Proof.Machine

namespace Sys2Proof.Machine

/-! ## Host access (spec/44_host_access.md): the reads and writes of REG, PIX and STRM -/

/-! ### What a step at each access does -/

section Access

variable {s : State} {n k : Nat} {rest : List HostAction}

theorem step_rdReg (hp : s.pending = .rdReg n :: rest) :
    step s = .next ((s.setPending rest).addReply (.reg (readReg s n))) := step_cons hp

theorem step_wrReg {v : Word} (hn : n ≠ 0) (hp : s.pending = .wrReg n v :: rest) :
    step s = .next (writeReg (s.setPending rest) n v) := (step_cons hp).trans (if_neg hn)

theorem step_rdPix (hp : s.pending = .rdPix k :: rest) :
    step s = .next ((s.setPending rest).addReply (.pix (readPix s k))) := step_cons hp

theorem step_wrPix {v : Byte} (hp : s.pending = .wrPix k v :: rest) :
    step s = .next (writePix (s.setPending rest) k v) := step_cons hp

theorem step_rdStrm (hp : s.pending = .rdStrm k :: rest) :
    step s = .next ((s.setPending rest).addReply (.strm (readStrm s k))) := step_cons hp

theorem step_wrStrm {v : Byte} (hp : s.pending = .wrStrm k v :: rest) :
    step s = .next (writeStrm (s.setPending rest) k v) := step_cons hp

end Access

/-! ### Registers -/

/-- A mode's tag is its number of rows (spec/00_scope.md R11). -/
theorem tag_toNat (m : TileMode) : (tag m).toNat = rowCount m := by cases m <;> rfl

/-- Every register is zero-extended to 32 bits, so its value is read unchanged (R171). -/
theorem readReg_toNat (s : State) (n : Nat) :
    (readReg s n).toNat = if n = 1 then s.status.toNat else if n = 2 then s.docW.toNat else if n = 3 then s.docH.toNat
      else if n = 4 then rowCount s.docMode else if n = 5 then s.slen.toNat else 0 := by
  match n with
  | 0 => rfl
  | 1 => exact BitVec.toNat_setWidth_of_le (by decide)
  | 2 => exact BitVec.toNat_setWidth_of_le (by decide)
  | 3 => exact BitVec.toNat_setWidth_of_le (by decide)
  | 4 => exact (BitVec.toNat_setWidth_of_le (by decide)).trans (tag_toNat s.docMode)
  | 5 => exact BitVec.toNat_setWidth_of_le (by decide)
  | n + 6 => simp [readReg]

theorem writeReg_four (s : State) (v : Word) : writeReg s 4 v = writeMode s v := rfl

theorem writeReg_five (s : State) (v : Word) : writeReg s 5 v = writeSlen s v := rfl

/-- Registers 4 and 5 are the only ones a write can change, CMD apart (R172). -/
theorem writeReg_of_ne (s : State) {n : Nat} (v : Word) (h4 : n ≠ 4) (h5 : n ≠ 5) : writeReg s n v = s := by
  unfold writeReg
  split
  · exact absurd rfl h4
  · exact absurd rfl h5
  · rfl

theorem writeMode_of_ne (s : State) {v : Word} (h8 : v ≠ 8) (h16 : v ≠ 16) : writeMode s v = s :=
  (if_neg h8).trans (if_neg h16)

theorem writeSlen_of_le (s : State) {v : Word} (hv : v.toNat ≤ strmCap) :
    writeSlen s v = s.setSlen (v.setWidth 23) := if_pos hv

theorem writeSlen_of_gt (s : State) {v : Word} (hv : strmCap < v.toNat) : writeSlen s v = s :=
  if_neg (Nat.not_le.2 hv)

/-- SLEN's 23 bits hold every length up to STRM_CAP (spec/10_state.md R24, R30). -/
theorem setWidth_length_toNat {v : Word} (hv : v.toNat ≤ strmCap) : (v.setWidth 23 : Length).toNat = v.toNat := by
  rw [BitVec.toNat_setWidth]
  exact Nat.mod_eq_of_lt (Nat.lt_of_le_of_lt hv (by decide))

/-! ### Units of PIX and STRM -/

theorem readPix_of_lt (s : State) {k : Nat} (hk : k < pixCount s) : readPix s k = pixCell s k := if_pos hk

theorem readPix_of_ge (s : State) {k : Nat} (hk : pixCount s ≤ k) : readPix s k = 0 := if_neg (Nat.not_lt.2 hk)

theorem writePix_of_lt (s : State) {k : Nat} (v : Byte) (hk : k < pixCount s) : writePix s k v = storePix s k v :=
  if_pos hk

theorem writePix_of_ge (s : State) {k : Nat} (v : Byte) (hk : pixCount s ≤ k) : writePix s k v = s :=
  if_neg (Nat.not_lt.2 hk)

theorem readStrm_of_lt (s : State) {k : Nat} (hk : k < strmCap) : readStrm s k = strmByte s k := if_pos hk

theorem readStrm_of_ge (s : State) {k : Nat} (hk : strmCap ≤ k) : readStrm s k = 0 := if_neg (Nat.not_lt.2 hk)

theorem writeStrm_of_lt (s : State) {k : Nat} (v : Byte) (hk : k < strmCap) : writeStrm s k v = storeStrm s k v :=
  if_pos hk

theorem writeStrm_of_ge (s : State) {k : Nat} (v : Byte) (hk : strmCap ≤ k) : writeStrm s k v = s :=
  if_neg (Nat.not_lt.2 hk)

/-! ### The statements on host access -/

/-- Settles O35: the write goes to `writeMode` or `writeSlen`, each of which takes only its own values. -/
theorem registerWritesSetModeAndLength : Obligations.RegisterWritesSetModeAndLength := by
  intro s n v rest hn hp
  rw [step_wrReg hn hp]
  refine ⟨?_, ?_, ?_, ?_, ?_, fun h4 h5 => by rw [writeReg_of_ne _ v h4 h5]⟩
  · rintro rfl rfl
    rfl
  · rintro rfl rfl
    rfl
  · rintro rfl h8 h16
    rw [writeReg_four, writeMode_of_ne _ h8 h16]
  · rintro rfl hv
    refine ⟨_, setWidth_length_toNat hv, ?_⟩
    rw [writeReg_five, writeSlen_of_le _ hv]
  · rintro rfl hv
    rw [writeReg_five, writeSlen_of_gt _ hv]

/-- Settles O37: a cell that exists is stored (`pixCell_storePix`), and the store touches PIX alone. -/
theorem pixelWriteStoresOneCell : Obligations.PixelWriteStoresOneCell := by
  intro s k v rest hp
  rw [step_wrPix hp]
  refine ⟨fun hk => ?_, fun hk => congrArg _ (writePix_of_ge _ v hk)⟩
  rw [writePix_of_lt (s.setPending rest) v hk]
  refine ⟨_, rfl, ?_, fun j hj => ?_, rfl, rfl, rfl, rfl, ⟨fun _ => rfl, rfl⟩, rfl, rfl, rfl, rfl⟩
  · rw [pixCell_storePix, if_pos rfl]
  · rw [pixCell_storePix, if_neg hj.symm, pixCell_setPending]

/-- Settles O38: a byte below STRM_CAP is stored (`strmByte_storeStrm`), and the store touches STRM alone; SLEN is not looked at. -/
theorem streamWriteStoresOneByte : Obligations.StreamWriteStoresOneByte := by
  intro s k v rest hp
  rw [step_wrStrm hp]
  refine ⟨fun hk => ?_, fun hk => congrArg _ (writeStrm_of_ge _ v hk)⟩
  rw [writeStrm_of_lt _ v hk]
  refine ⟨_, rfl, ?_, fun j hj => ?_, rfl, rfl, ⟨fun _ => rfl, rfl, rfl, rfl⟩, rfl, rfl, rfl, rfl⟩
  · rw [strmByte_storeStrm, if_pos rfl]
  · rw [strmByte_storeStrm, if_neg hj.symm, strmByte_setPending]

/-- Settles O34: the value returned is the one `readReg_toNat` states. -/
theorem registerReadsReturnTheirValue : Obligations.RegisterReadsReturnTheirValue :=
  fun s n _ hp => ⟨readReg s n, step_rdReg hp, readReg_toNat s n⟩

/-- Settles O36: a unit that exists is read as it stands, any other as 0. -/
theorem memoryReadsReturnTheUnit : Obligations.MemoryReadsReturnTheUnit := by
  refine fun s k rest => ⟨fun hp hk => ?_, fun hp hk => ?_, fun hp hk => ?_, fun hp hk => ?_⟩
  · rw [step_rdPix hp, readPix_of_lt s hk]
  · rw [step_rdPix hp, readPix_of_ge s hk]
  · rw [step_rdStrm hp, readStrm_of_lt s hk]
  · rw [step_rdStrm hp, readStrm_of_ge s hk]

end Sys2Proof.Machine

namespace Sys2Proof.Machine

/-! ## Faults (spec/60_exceptions.md) -/

/-- A CMD write runs the command its word decodes to, or raises ILLEGAL (R195). -/
theorem issueCommand_cases (s : State) (w : Word) :
    (∃ i, decodeWord w = .ok i ∧ issueCommand s w = exec i s) ∨
    (IllegalCase w ∧ issueCommand s w = .next (s.setStatus 5)) := by
  by_cases hw : IllegalCase w
  · exact .inr ⟨hw, issueCommand_of_illegalCase s hw⟩
  · obtain ⟨i, hi⟩ := (exists_decodeWord_ok_iff w).2 hw
    exact .inl ⟨i, hi, by simp only [issueCommand, hi]⟩

/-- A success ends with STATUS 0 (`exec_of_succeeds`), so a command that ends with any other STATUS has raised a fault (R196). -/
theorem exec_eq_setStatus_of_status_ne_zero {s t : State} {i : Instr} (he : exec i s = .next t) (h0 : t.status ≠ 0) :
    t = s.setStatus t.status := by
  rcases exec_cases i s with ⟨u, -, hn⟩ | ⟨f, -, hn⟩
  · cases Host.Outcome.next.inj (he.symm.trans hn)
    exact absurd (State.setStatus_status u 0) h0
  · cases Host.Outcome.next.inj (he.symm.trans hn)
    rw [State.setStatus_status]

theorem issueCommand_eq_setStatus_of_status_ne_zero {s t : State} {w : Word} (he : issueCommand s w = .next t)
    (h0 : t.status ≠ 0) : t = s.setStatus t.status := by
  rcases issueCommand_cases s w with ⟨i, -, hi⟩ | ⟨-, hn⟩
  · exact exec_eq_setStatus_of_status_ne_zero (hi.symm.trans he) h0
  · cases Host.Outcome.next.inj (he.symm.trans hn)
    rw [State.setStatus_status]

/-- Settles O27: a faulted command has only raised (`exec_cases`), and a CMD write is one command or ILLEGAL (`issueCommand_cases`). -/
theorem faultsChangeOnlyStatus : Obligations.FaultsChangeOnlyStatus :=
  ⟨fun _ _ _ he h0 => exec_eq_setStatus_of_status_ne_zero he h0,
    fun _ _ _ _ hp he h0 => issueCommand_eq_setStatus_of_status_ne_zero ((step_cons hp).symm.trans he) h0⟩

end Sys2Proof.Machine

/-! ## The encoder, and the decoder's fields as numbers (spec/30_encoding.md R84, R90) -/

namespace Sys2Proof

/-! ### The operand fields as numbers -/

theorem modeField_toNat (w : Word) : (modeField w).toNat = w.toNat / 2 ^ 8 % 2 ^ 8 := by
  rw [modeField, BitVec.extractLsb'_toNat, Nat.shiftRight_eq_div_pow]

theorem txField_toNat (w : Word) : (txField w).toNat = w.toNat / 2 ^ 16 % 2 ^ 8 := by
  rw [txField, BitVec.extractLsb'_toNat, Nat.shiftRight_eq_div_pow]

theorem tyField_toNat (w : Word) : (tyField w).toNat = w.toNat / 2 ^ 24 := by
  rw [tyField, BitVec.extractLsb'_toNat, Nat.shiftRight_eq_div_pow]
  exact Nat.mod_eq_of_lt (Nat.div_lt_of_lt_mul w.isLt)

theorem newwField_toNat (w : Word) : (newwField w).toNat = w.toNat / 2 ^ 8 % 2 ^ 12 := by
  rw [newwField, BitVec.extractLsb'_toNat, Nat.shiftRight_eq_div_pow]

theorem newhField_toNat (w : Word) : (newhField w).toNat = w.toNat / 2 ^ 20 := by
  rw [newhField, BitVec.extractLsb'_toNat, Nat.shiftRight_eq_div_pow]
  exact Nat.mod_eq_of_lt (Nat.div_lt_of_lt_mul w.isLt)

/-! ### The assembled word as a number -/

/-- A field laid above bits that are already there is added at its place. -/
theorem toNat_or_shiftLeft {n : Nat} {lo : Word} {hi : BitVec n} {k : Nat} (hk : n + k ≤ 32) (hlo : lo.toNat < 2 ^ k) :
    (lo ||| hi.setWidth 32 <<< k).toNat = lo.toNat + hi.toNat * 2 ^ k := by
  have hhi : hi.toNat * 2 ^ k < 2 ^ 32 := calc
    hi.toNat * 2 ^ k < 2 ^ n * 2 ^ k := Nat.mul_lt_mul_of_pos_right hi.isLt (Nat.two_pow_pos k)
    _ = 2 ^ (n + k) := (Nat.pow_add 2 n k).symm
    _ ≤ 2 ^ 32 := Nat.pow_le_pow_right (by decide) hk
  rw [BitVec.toNat_or, BitVec.toNat_shiftLeft, BitVec.toNat_setWidth_of_le (by omega), Nat.shiftLeft_eq,
    Nat.mod_eq_of_lt hhi, Nat.or_comm, Nat.mul_comm, ← Nat.two_pow_add_eq_or_of_lt hlo, Nat.add_comm]

theorem encodeWord_decode_toNat (mode tx ty : Byte) :
    (encodeWord (.decode mode tx ty)).toNat = 2 + mode.toNat * 2 ^ 8 + tx.toNat * 2 ^ 16 + ty.toNat * 2 ^ 24 := by
  have h8 : (2#32 ||| mode.setWidth 32 <<< 8).toNat = 2 + mode.toNat * 2 ^ 8 :=
    toNat_or_shiftLeft (by decide) (by decide)
  have h16 : (2#32 ||| mode.setWidth 32 <<< 8 ||| tx.setWidth 32 <<< 16).toNat =
      2 + mode.toNat * 2 ^ 8 + tx.toNat * 2 ^ 16 := by
    rw [toNat_or_shiftLeft (by decide) (by omega), h8]
  calc (encodeWord (.decode mode tx ty)).toNat
      = (2#32 ||| mode.setWidth 32 <<< 8 ||| tx.setWidth 32 <<< 16 ||| ty.setWidth 32 <<< 24).toNat := rfl
    _ = _ := by rw [toNat_or_shiftLeft (by decide) (by omega), h16]

theorem encodeWord_resize_toNat (neww newh : Geom) :
    (encodeWord (.resize neww newh)).toNat = 5 + neww.toNat * 2 ^ 8 + newh.toNat * 2 ^ 20 := by
  have h8 : (5#32 ||| neww.setWidth 32 <<< 8).toNat = 5 + neww.toNat * 2 ^ 8 :=
    toNat_or_shiftLeft (by decide) (by decide)
  calc (encodeWord (.resize neww newh)).toNat
      = (5#32 ||| neww.setWidth 32 <<< 8 ||| newh.setWidth 32 <<< 20).toNat := rfl
    _ = _ := by rw [toNat_or_shiftLeft (by decide) (by omega), h8]

/-! ### Encoder and decoder are inverse (R90) -/

/-- The word of a well-formed command stands in that command's row, each field holding its operand. -/
theorem decodes_encodeWord {i : Instr} (hi : i.WellFormed) : Decodes (encodeWord i) i := by
  cases i with
  | encode => exact .encode rfl rfl
  | decode mode tx ty =>
    have hw := encodeWord_decode_toNat mode tx ty
    have hop : opField (encodeWord (.decode mode tx ty)) = 2 := opField_eq_iff.2 (by rw [hw]; show _ = 2; omega)
    have hmode : modeField (encodeWord (.decode mode tx ty)) = mode :=
      BitVec.eq_of_toNat_eq (by rw [modeField_toNat, hw]; omega)
    have htx : txField (encodeWord (.decode mode tx ty)) = tx := BitVec.eq_of_toNat_eq (by rw [txField_toNat, hw]; omega)
    have hty : tyField (encodeWord (.decode mode tx ty)) = ty := BitVec.eq_of_toNat_eq (by rw [tyField_toNat, hw]; omega)
    have hd := Decodes.decode hop (hmode.symm ▸ hi)
    rwa [hmode, htx, hty] at hd
  | write => exact .write rfl rfl
  | read => exact .read rfl rfl
  | resize neww newh =>
    have hw := encodeWord_resize_toNat neww newh
    have hop : opField (encodeWord (.resize neww newh)) = 5 := opField_eq_iff.2 (by rw [hw]; show _ = 5; omega)
    have hneww : newwField (encodeWord (.resize neww newh)) = neww :=
      BitVec.eq_of_toNat_eq (by rw [newwField_toNat, hw]; omega)
    have hnewh : newhField (encodeWord (.resize neww newh)) = newh :=
      BitVec.eq_of_toNat_eq (by rw [newhField_toNat, hw]; omega)
    have hd := Decodes.resize hop
    rwa [hneww, hnewh] at hd

/-- A format N word with no reserved bit set is its opcode. -/
theorem toNat_eq_of_opField_of_reservedField {w : Word} {v : Byte} (op : opField w = v) (res : reservedField w = 0) :
    w.toNat = v.toNat := by
  rw [opField_eq_iff] at op
  rw [reservedField_eq_zero_iff] at res
  omega

/-- A word in a command's row is that command's assembled word: opcode and fields together are all 32 bits. -/
theorem encodeWord_of_decodes {w : Word} {i : Instr} (h : Decodes w i) : encodeWord i = w := by
  refine BitVec.eq_of_toNat_eq ?_
  cases h with
  | encode op res | write op res | read op res => exact (toNat_eq_of_opField_of_reservedField op res).symm
  | decode op mode =>
    have hop : w.toNat % 256 = 2 := opField_eq_iff.1 op
    rw [encodeWord_decode_toNat, modeField_toNat, txField_toNat, tyField_toNat]
    omega
  | resize op =>
    have hop : w.toNat % 256 = 5 := opField_eq_iff.1 op
    rw [encodeWord_resize_toNat, newwField_toNat, newhField_toNat]
    omega

theorem wellFormed_of_decodes {w : Word} {i : Instr} (h : Decodes w i) : i.WellFormed := by
  cases h with
  | decode op mode => exact mode
  | encode | write | read | resize => trivial

end Sys2Proof

namespace Sys2Proof.Machine

/-- Settles O1: the assembled word stands in its command's row (`decodes_encodeWord`), which is what the decoder looks for. -/
theorem decodeInvertsEncode : Obligations.DecodeInvertsEncode :=
  fun _ hi => decodeWord_eq_ok_iff.2 (decodes_encodeWord hi)

/-- Settles O2: a word in a command's row is its assembled word (`encodeWord_of_decodes`). -/
theorem decodedWordIsItsEncoding : Obligations.DecodedWordIsItsEncoding := by
  intro w i h
  have hd := decodeWord_eq_ok_iff.1 h
  exact ⟨wellFormed_of_decodes hd, encodeWord_of_decodes hd⟩

/-- Settles O4: the operands of a decoded word are its fields, read as numbers. -/
theorem operandFieldsAreBitSlices : Obligations.OperandFieldsAreBitSlices := by
  refine fun w => ⟨fun mode tx ty h => ?_, fun neww newh h => ?_⟩
  · cases decodeWord_eq_ok_iff.1 h
    exact ⟨modeField_toNat w, txField_toNat w, tyField_toNat w⟩
  · cases decodeWord_eq_ok_iff.1 h
    exact ⟨newwField_toNat w, newhField_toNat w⟩

/-- Settles O6: sixteen closed words, each run through the decoder. -/
theorem workedEncodingsDecode : Obligations.WorkedEncodingsDecode :=
  ⟨rfl, rfl, rfl, rfl, rfl, rfl, rfl, rfl, rfl, rfl, rfl, rfl, rfl, rfl, rfl, rfl⟩

end Sys2Proof.Machine

namespace Sys2Proof.Machine

/-! ## The inverse laws of the row functions (spec/40_rowpack.md) -/

/-- The eight lanes of a plane are all its bits. -/
theorem plane_ext {a b : Byte} (h : ∀ i, i < 8 → a.getLsbD (7 - i) = b.getLsbD (7 - i)) : a = b := by
  refine BitVec.eq_of_getLsbD_eq fun k hk => ?_
  have hlane := h (7 - k) (by omega)
  rwa [show 7 - (7 - k) = k by omega] at hlane

theorem packRow_unpackRow (lo hi : Byte) : packRow (unpackRow lo hi) = (lo, hi) := by
  refine Prod.ext (plane_ext fun i hi8 => ?_) (plane_ext fun i hi8 => ?_)
  · rw [packRow_lo_bit _ i hi8, unpackRow_bit]; simp
  · rw [packRow_hi_bit _ i hi8, unpackRow_bit]; simp

theorem unpackRow_packRow (p : Nat → Byte) {i : Nat} (hi : i < 8) :
    unpackRow (packRow p).1 (packRow p).2 i = p i &&& 3 := by
  refine BitVec.eq_of_getLsbD_eq fun b hb => ?_
  rw [unpackRow_bit, packRow_lo_bit p i hi, packRow_hi_bit p i hi, BitVec.getLsbD_and]
  interval_cases b <;> simp

theorem unpackRow_of_eq_packRow {lo hi : Byte} {p : Nat → Byte} (h : (lo, hi) = packRow p) {i : Nat} (hi8 : i < 8) :
    unpackRow lo hi i = p i &&& 3 := by
  rw [← unpackRow_packRow p hi8, ← h]

/-- Settles O10: each law, bit by bit. -/
theorem rowFunctionsAreInverse : Obligations.RowFunctionsAreInverse :=
  ⟨packRow_unpackRow, fun p _ hi => unpackRow_packRow p hi⟩

/-! ## The round trips through the stream (spec/41_tile_codec.md, spec/42_framer.md section 3)

The packed tiles stand at the same places for ENCODE and DECODE (from offset 0) as for WRITE and READ (from offset 8), so each
direction is proved once, from any offset. -/

theorem tiles_mul_eight {m : TileMode} {w h : Nat} (hg : ValidGeometry m w h) : w / 8 * 8 = w :=
  Nat.div_mul_cancel (Nat.dvd_of_mod_eq_zero hg.2.1)

theorem tiles_mul_rowCount {m : TileMode} {w h : Nat} (hg : ValidGeometry m w h) : h / rowCount m * rowCount m = h :=
  Nat.div_mul_cancel (Nat.dvd_of_mod_eq_zero hg.2.2.2)

theorem tileCounts_pos {m : TileMode} {w h : Nat} (hg : ValidGeometry m w h) : 0 < w / 8 ∧ 0 < h / rowCount m := by
  obtain ⟨hw0, hw, hh0, hh⟩ := hg
  exact ⟨Nat.div_pos (Nat.le_of_dvd hw0 (Nat.dvd_of_mod_eq_zero hw)) (by decide),
    Nat.div_pos (Nat.le_of_dvd hh0 (Nat.dvd_of_mod_eq_zero hh)) (rowCount_pos m)⟩

/-- Packed tiles, unpacked with the document's own mode and counts, give the document back with each cell masked with 3. -/
theorem document_masked_of_packed_of_unpacked {s t u : State} {base : Nat} (wf : DocWellFormed s)
    (packed : HoldsPackedTiles s t base)
    (unpacked : HoldsUnpackedTiles t u s.docMode (s.docW.toNat / 8) (s.docH.toNat / rowCount s.docMode) base) :
    u.docW = s.docW ∧ u.docH = s.docH ∧ u.docMode = s.docMode ∧
      ∀ k, k < s.docW.toNat * s.docH.toNat → pixCell u k = pixCell s k &&& 3 := by
  obtain ⟨hw, hh, hm, -, hcell⟩ := unpacked
  have hw8 := tiles_mul_eight wf
  have hhrc := tiles_mul_rowCount wf
  refine ⟨BitVec.eq_of_toNat_eq (hw.trans hw8), BitVec.eq_of_toNat_eq (hh.trans hhrc), hm, fun k hk => ?_⟩
  obtain ⟨tyi, txi, r, i, hy, hx, hr, hi, rfl⟩ := exists_pixIdx (tx := s.docW.toNat / 8)
    (ty := s.docH.toNat / rowCount s.docMode) (rc := rowCount s.docMode) (by rwa [hw8, hhrc])
  rw [hcell tyi txi r i hy hx hr hi, unpackRow_of_eq_packRow (packed tyi txi r hy hx hr) hi, hw8]

/-- The unpacked document has the counts it was unpacked with. -/
theorem tileCounts_of_unpacked {s t : State} {m : TileMode} {tx ty base : Nat} (unpacked : HoldsUnpackedTiles s t m tx ty base) :
    t.docW.toNat / 8 = tx ∧ t.docH.toNat / rowCount t.docMode = ty := by
  obtain ⟨hw, hh, hm, -⟩ := unpacked
  rw [hw, hh, hm]
  exact ⟨Nat.mul_div_cancel _ (by decide), Nat.mul_div_cancel _ (rowCount_pos m)⟩

/-- The unpacked document packs to as many bytes as it was unpacked from. -/
theorem cells_div_four_of_unpacked {s t : State} {m : TileMode} {tx ty base : Nat} (wf : DocWellFormed t)
    (unpacked : HoldsUnpackedTiles s t m tx ty base) : t.docW.toNat * t.docH.toNat / 4 = packedLength m tx ty := by
  obtain ⟨hx, hy⟩ := tileCounts_of_unpacked unpacked
  obtain ⟨-, -, hm, -⟩ := unpacked
  rw [cells_div_four_eq_packedLength wf, hx, hy, hm]

/-- A document unpacked from the stream, packed again, gives back every byte it was unpacked from. -/
theorem stream_restored_of_unpacked_of_packed {s t u : State} {m : TileMode} {tx ty base : Nat}
    (unpacked : HoldsUnpackedTiles s t m tx ty base) (packed : HoldsPackedTiles t u base) {k : Nat}
    (hk : k < packedLength m tx ty) : strmByte u (base + k) = strmByte s (base + k) := by
  obtain ⟨htx, hty⟩ := tileCounts_of_unpacked unpacked
  obtain ⟨hw, -, rfl, -, hcell⟩ := unpacked
  obtain ⟨tyi, txi, r, p, hy, hx, hr, hp, rfl⟩ := exists_tileOff hk
  have hrow := packed tyi txi r
  rw [htx, hty, hw] at hrow
  have hcells : packRow (fun i => pixCell t (pixIdx (tx * 8) (rowCount t.docMode) tyi txi r i)) = packRow (unpackRow
      (strmByte s (base + tileOff tx (rowCount t.docMode) tyi txi r 0))
      (strmByte s (base + tileOff tx (rowCount t.docMode) tyi txi r 1))) :=
    packRow_congr fun i hi => hcell tyi txi r i hy hx hr hi
  have hbytes := (hrow hy hx hr).trans (hcells.trans (packRow_unpackRow _ _))
  obtain ⟨hlo, hhi⟩ := Prod.ext_iff.1 hbytes
  interval_cases p
  · exact hlo
  · exact hhi

/-- Settles O14: DECODE unpacks the tiles that ENCODE packed (`document_masked_of_packed_of_unpacked`). -/
theorem encodeThenDecodeMasksCells : Obligations.EncodeThenDecodeMasksCells := by
  intro s wf hx hy
  obtain ⟨t, ht, -, hlen, -, packed, -⟩ := (encodePacksTheDocument s).1 wf
  have htx := toNat_ofNat_of_le_tcMax hx
  have hty := toNat_ofNat_of_le_tcMax hy
  obtain ⟨hx0, hy0⟩ := tileCounts_pos wf
  rw [cells_div_four_eq_packedLength wf] at hlen
  obtain ⟨u, hu, h0, unpacked, -⟩ := (decodeUnpacksTheStream t (tag s.docMode)
    (BitVec.ofNat 8 (s.docW.toNat / 8)) (BitVec.ofNat 8 (s.docH.toNat / rowCount s.docMode))).1 s.docMode rfl
    (BitVec.toNat_ne_iff_ne.1 (htx.trans_ne hx0.ne')) (BitVec.toNat_ne_iff_ne.1 (hty.trans_ne hy0.ne'))
    (by rw [htx, hty]; exact hlen)
  rw [htx, hty] at unpacked
  exact ⟨t, u, ht, hu, h0, document_masked_of_packed_of_unpacked wf packed unpacked⟩

/-- Settles O21: READ accepts the header WRITE wrote and unpacks the tiles behind it (`document_masked_of_packed_of_unpacked`). -/
theorem writeThenReadMasksCells : Obligations.WriteThenReadMasksCells := by
  intro s wf hx hy
  obtain ⟨t, ht, -, hlen, -, h0, h1, h2, h3, h4, h5, htx, hty, packed, -⟩ := (writeFramesTheDocument s).1 wf hx hy
  obtain ⟨hx0, hy0⟩ := tileCounts_pos wf
  have hd : HeaderAccepted t := ⟨hlen ▸ Nat.le_add_right 8 _, ⟨h0, h1, h2, h3⟩, h4,
    BitVec.toNat_ne_iff_ne.1 (htx.trans_ne hx0.ne'), BitVec.toNat_ne_iff_ne.1 (hty.trans_ne hy0.ne')⟩
  have hm : s.docMode = .rows16 ↔ strmByte t 5 = 16 := by
    rw [h5]; cases s.docMode <;> decide
  have hpay : 8 + (strmByte t 6).toNat * (strmByte t 7).toNat * rowCount s.docMode * 2 ≤ t.slen.toNat := by
    rw [hlen, htx, hty, cells_div_four_eq_packedLength wf]; exact Nat.le_refl _
  obtain ⟨u, hu, hs, unpacked, -⟩ := readLoadsTheFile t s.docMode hd hm hpay
  rw [htx, hty] at unpacked
  exact ⟨t, u, ht, hu, hs, document_masked_of_packed_of_unpacked wf packed unpacked⟩

/-- Settles O15: ENCODE packs the tiles that DECODE unpacked (`stream_restored_of_unpacked_of_packed`) and writes no other. -/
theorem decodeThenEncodeRestoresStream : Obligations.DecodeThenEncodeRestoresStream := by
  intro s m tx ty hx hy hlen
  obtain ⟨t, ht, -, unpacked, wf, -, ⟨hstrm, -⟩, -⟩ := (decodeUnpacksTheStream s (tag m) tx ty).1 m rfl hx hy hlen
  obtain ⟨u, hu, h0, hulen, -, packed, hbeyond, -⟩ := (encodePacksTheDocument t).1 wf
  have hslen : u.slen.toNat = s.slen.toNat := hulen.trans ((cells_div_four_of_unpacked wf unpacked).trans hlen.symm)
  refine ⟨t, u, ht, hu, h0, fun k => ?_, BitVec.eq_of_toNat_eq hslen⟩
  by_cases hk : k < u.slen.toNat
  · have hbyte := stream_restored_of_unpacked_of_packed unpacked packed (hk.trans_eq (hslen.trans hlen))
    rwa [Nat.zero_add] at hbyte
  · exact (hbeyond k (Nat.not_lt.1 hk)).trans (hstrm k)

/-- The mode a header's mode byte selects, back as a mode byte (spec/42_framer.md R146). -/
theorem tag_modeOfHeader (v : Byte) : tag (modeOfHeader v) = if v = 16 then 16 else 8 := by
  unfold modeOfHeader
  split <;> rfl

theorem modeOfHeader_eq_rows16_iff (v : Byte) : modeOfHeader v = .rows16 ↔ v = 16 := by
  unfold modeOfHeader
  split
  · next h => exact iff_of_true rfl h
  · next h => exact iff_of_false nofun h

/-- Settles O22: WRITE packs the tiles that READ unpacked behind a header of the same counts; only the mode byte is normalised
(R146). -/
theorem readThenWriteReproducesFile : Obligations.ReadThenWriteReproducesFile := by
  intro s hd hlen
  have hpay : 8 + headerPayload s ≤ s.slen.toNat := hlen.ge
  obtain ⟨t, ht, -, unpacked, wf, -, ⟨hstrm, -⟩, -⟩ :=
    readLoadsTheFile s (modeOfHeader (strmByte s 5)) hd (modeOfHeader_eq_rows16_iff _) hpay
  obtain ⟨htx, hty⟩ := tileCounts_of_unpacked unpacked
  obtain ⟨u, hu, h0, hulen, -, m0, m1, m2, m3, hver, htag, hux, huy, packed, hbeyond, -⟩ :=
    (writeFramesTheDocument t).1 wf (htx ▸ Nat.le_of_lt_succ (strmByte s 6).isLt)
      (hty ▸ Nat.le_of_lt_succ (strmByte s 7).isLt)
  obtain ⟨-, ⟨n0, n1, n2, n3⟩, hsver, -, -⟩ := hd
  have hslen : u.slen.toNat = s.slen.toNat := by
    rw [hulen, cells_div_four_of_unpacked wf unpacked, hlen, headerPayload]
  refine ⟨t, u, ht, hu, h0, BitVec.eq_of_toNat_eq hslen, fun k h5 => ?_, ?_⟩
  · obtain hk | ⟨j, hj, rfl⟩ | hk : k < 8 ∨ (∃ j, j < headerPayload s ∧ k = 8 + j) ∨ u.slen.toNat ≤ k := by
      rcases Nat.lt_or_ge k 8 with hk | hk
      · exact .inl hk
      · rcases Nat.lt_or_ge k (8 + headerPayload s) with hk' | hk'
        · exact .inr (.inl ⟨k - 8, by omega, by omega⟩)
        · exact .inr (.inr (by omega))
    · interval_cases k
      · exact m0.trans n0.symm
      · exact m1.trans n1.symm
      · exact m2.trans n2.symm
      · exact m3.trans n3.symm
      · exact hver.trans hsver.symm
      · exact absurd rfl h5
      · exact BitVec.eq_of_toNat_eq (hux.trans htx)
      · exact BitVec.eq_of_toNat_eq (huy.trans hty)
    · exact stream_restored_of_unpacked_of_packed unpacked packed hj
    · exact (hbeyond k hk).trans (hstrm k)
  · obtain ⟨-, -, hm, -⟩ := unpacked
    rw [htag, hm, tag_modeOfHeader]

/-! ## Mode and layout (spec/41_tile_codec.md section 1) -/

/-- In a document one tile wide the rows of cells follow one another whatever the mode, so its packed bytes do too. -/
theorem encodeByte_one_tile_wide (P : Nat → Byte) (rc k : Nat) :
    encodeByte P 8 rc k =
      if k % 2 = 0 then (packRow fun i => P (k / 2 * 8 + i)).1 else (packRow fun i => P (k / 2 * 8 + i)).2 := by
  have hidx : ∀ i, pixIdx 8 rc (k / 2 / rc) 0 (k / 2 % rc) i = k / 2 * 8 + i := fun i => by
    rw [pixIdx, Nat.div_add_mod', Nat.zero_mul, Nat.add_zero]
  simp only [encodeByte, Nat.reduceDiv, Nat.mod_one, Nat.div_one, hidx]

/-- Settles O16: both modes store as many bytes, and the same ones (`encodeByte_one_tile_wide`). -/
theorem oneTileWidePacksAlikeInBothModes : Obligations.OneTileWidePacksAlikeInBothModes := by
  intro s hw hh0 hh
  have hw8 : s.docW.toNat = 8 := by rw [hw]; rfl
  have wf8 : DocWellFormed (s.setMode .rows8) := by
    simp only [DocWellFormed, ValidGeometry, State.setMode_docW, State.setMode_docH, State.setMode_docMode, rowCount]; omega
  have wf16 : DocWellFormed (s.setMode .rows16) := by
    simp only [DocWellFormed, ValidGeometry, State.setMode_docW, State.setMode_docH, State.setMode_docMode, rowCount]; omega
  refine ⟨_, _, exec_of_succeeds (.encode wf8), exec_of_succeeds (.encode wf16), rfl, rfl, fun k => ?_, ?_⟩
  · simp only [strmByte_setStatus, strmByte_storeStream, strmByte_setMode, State.setMode_docW, State.setMode_docH, hw8,
      encodeByte_one_tile_wide, pixCell_setMode]
  · simp only [State.setStatus_slen, storeStream_slen, State.setMode_docW, State.setMode_docH]

/-! ## A second ENCODE (spec/20_memory.md section 3) -/

theorem Memory.overwrite_overwrite (m : Memory) (n : Nat) (f g : Nat → Byte) :
    (m.overwrite n g).overwrite n f = m.overwrite n f := by
  have hlow : ((List.range n).map fun k => (k, g k)).filter (fun c => n ≤ c.1) = [] := by
    rw [List.filter_eq_nil_iff]
    intro c hc
    obtain ⟨k, hk, rfl⟩ := List.mem_map.1 hc
    simpa using List.mem_range.1 hk
  rw [overwrite, overwrite, overwrite, List.filter_append, hlow, List.nil_append, List.filter_filter]
  simp only [Bool.and_self]

/-- Settles O13: the second ENCODE packs the same document over the same bytes (`Memory.overwrite_overwrite`), or faults again. -/
theorem secondEncodeChangesNothing : Obligations.SecondEncodeChangesNothing := by
  intro s
  by_cases wf : DocWellFormed s
  · refine ⟨_, exec_of_succeeds (.encode wf), (exec_of_succeeds (.encode ?_)).trans (congrArg _ ?_)⟩
    · exact wf
    · exact State.ext_fields rfl rfl rfl rfl (Memory.overwrite_overwrite _ _ _ _) rfl rfl rfl rfl rfl
  · exact ⟨_, exec_encode_of_not_docWellFormed wf, exec_encode_of_not_docWellFormed wf⟩

end Sys2Proof.Machine

namespace Sys2Proof.Machine

/-! ## The laws of the resizer (spec/43_resizer.md) -/

theorem Memory.relocate_relocate (m : Memory) (g g' : Nat → Option Nat) :
    (m.relocate g).relocate g' = m.relocate fun k => (g k).bind g' := by
  rw [relocate, relocate, relocate, List.filterMap_filterMap]
  congr 1
  funext c
  cases g c.1 <;> simp

/-- A relocation that leaves every listed cell where it is leaves the memory as it is. -/
theorem Memory.relocate_eq_self {m : Memory} {g : Nat → Option Nat} (h : ∀ c ∈ m, g c.1 = some c.1) : m.relocate g = m := by
  rw [relocate, List.filterMap_congr (g := some) fun c hc => by rw [h c hc]; rfl, List.filterMap_some]

/-- Growing a buffer keeps every cell of it, at its row and column. -/
theorem resizePlace_of_le {ow oh nw nh k : Nat} (hk : k < ow * oh) (hw : ow ≤ nw) (hh : oh ≤ nh) :
    resizePlace ow oh nw nh k = some (k / ow * nw + k % ow) := by
  have how : 0 < ow := Nat.pos_of_ne_zero fun h => by simp [h] at hk
  have hr : k / ow < oh := Nat.div_lt_of_lt_mul hk
  have hc : k % ow < ow := Nat.mod_lt k how
  exact if_pos ⟨lt_min hr (hr.trans_le hh), lt_min hc (hc.trans_le hw)⟩

theorem resizePlace_self {w h k : Nat} (hk : k < w * h) : resizePlace w h w h k = some k := by
  rw [resizePlace_of_le hk le_rfl le_rfl, Nat.div_add_mod']

/-- Shrinking back puts every cell of a grown buffer where it was. -/
theorem resizePlace_grow_shrink {ow oh nw nh k : Nat} (hk : k < ow * oh) (hw : ow ≤ nw) (hh : oh ≤ nh) :
    (resizePlace ow oh nw nh k).bind (resizePlace nw nh ow oh) = some k := by
  have how : 0 < ow := Nat.pos_of_ne_zero fun h => by simp [h] at hk
  have hr : k / ow < oh := Nat.div_lt_of_lt_mul hk
  have hc : k % ow < ow := Nat.mod_lt k how
  rw [resizePlace_of_le hk hw hh, Option.bind_some,
    resizePlace_overlap (lt_min (hr.trans_le hh) hr) (lt_min (hc.trans_le hw) hc), Nat.div_add_mod']

/-- Settles O24: under the invariants every listed cell lies in the canvas, and keeps its place (`resizePlace_self`). -/
theorem resizeToOwnSizeIsIdentity : Obligations.ResizeToOwnSizeIsIdentity := by
  intro s inv wf
  have hpix : s.pix.relocate (resizePlace s.docW.toNat s.docH.toNat s.docW.toNat s.docH.toNat) = s.pix :=
    Memory.relocate_eq_self fun c hc => resizePlace_self (inv.pix_exists c hc)
  rw [exec_of_succeeds (.resize s.docW s.docH wf wf), hpix]
  rfl

/-- Settles O25: under the invariants every listed cell lies in the canvas, and comes back (`resizePlace_grow_shrink`). -/
theorem growThenShrinkIsIdentity : Obligations.GrowThenShrinkIsIdentity := by
  intro s w h inv wf new hw hh
  refine ⟨_, exec_of_succeeds (.resize w h wf new), (exec_of_succeeds (.resize s.docW s.docH ?_ ?_)).trans (congrArg _ ?_)⟩
  · exact new
  · exact wf
  · have hpix : (s.pix.relocate (resizePlace s.docW.toNat s.docH.toNat w.toNat h.toNat)).relocate
        (resizePlace w.toNat h.toNat s.docW.toNat s.docH.toNat) = s.pix := by
      rw [Memory.relocate_relocate]
      exact Memory.relocate_eq_self fun c hc => resizePlace_grow_shrink (inv.pix_exists c hc) hw hh
    exact State.ext_fields hpix rfl rfl rfl rfl rfl rfl rfl rfl rfl

/-- Settles O26: each RESIZE keeps its own overlap (O23), and a cell of the second canvas outside the first has no old cell. -/
theorem twoResizesKeepTheIntersection : Obligations.TwoResizesKeepTheIntersection := by
  intro s w1 h1 w2 h2 wf new1 new2
  obtain ⟨t, ht, -, htw, hth, htm, hcell1, -⟩ := (resizeKeepsTheOverlap s w1 h1).1 wf new1
  have wft : DocWellFormed t := by rw [DocWellFormed, htm, htw, hth]; exact new1
  obtain ⟨u, hu, -, huw, huh, -, hcell2, -⟩ := (resizeKeepsTheOverlap t w2 h2).1 wft (htm.symm ▸ new2)
  refine ⟨t, u, ht, hu, huw, huh, fun y x hy hx => ?_⟩
  rw [hcell2 y x hy hx, htw, hth]
  by_cases hin : y < h1.toNat ∧ x < w1.toNat
  · obtain ⟨hy1, hx1⟩ := hin
    rw [if_pos ⟨lt_min hy1 hy, lt_min hx1 hx⟩, hcell1 y x hy1 hx1]
    exact if_congr (by simp only [lt_min_iff]; tauto) rfl rfl
  · have hout1 : ¬ (y < min h1.toNat h2.toNat ∧ x < min w1.toNat w2.toNat) := by simp only [lt_min_iff]; tauto
    have hout : ¬ (y < min s.docH.toNat (min h1.toNat h2.toNat) ∧ x < min s.docW.toNat (min w1.toNat w2.toNat)) := by
      simp only [lt_min_iff]; tauto
    rw [if_neg hout1, if_neg hout]

end Sys2Proof.Machine

namespace Sys2Proof.Machine

/-! ## All commands: what they report, read and leave alone -/

theorem status_of_exec {i : Instr} {s t u : State} {v : Byte} (he : exec i s = .next t)
    (hv : exec i s = .next (u.setStatus v)) : t.status = v := by
  cases Host.Outcome.next.inj (he.symm.trans hv)
  rfl

/-- READ, check by check, reports one of the codes 0 to 3 (spec/42_framer.md R143). -/
theorem exec_read_cases (s : State) :
    ∃ u v, exec .read s = .next (State.setStatus u v) ∧ (v = 0 ∨ v = 1 ∨ v = 2 ∨ v = 3) := by
  by_cases h8 : 8 ≤ s.slen.toNat
  · by_cases hr : ¬ MagicMatches s ∨ strmByte s 4 ≠ 1
    · exact ⟨s, 1, exec_read_of_unrecognized h8 hr, by decide⟩
    · obtain ⟨hm, hv⟩ := not_or.1 hr
      rw [exec_read_of_recognized h8 (not_not.1 hm) (not_not.1 hv)]
      split_ifs
      · exact ⟨s, 3, raise_eq .geometry s, by decide⟩
      · exact ⟨s, 2, raise_eq .truncated s, by decide⟩
      · exact ⟨_, 0, done_eq _, by decide⟩
  · exact ⟨s, 2, exec_read_of_short_header (Nat.not_le.1 h8), by decide⟩

/-- Settles O28: each check of a command raises its own fault, and past them all the command succeeds. -/
theorem commandsReportOnlyTheirFaults : Obligations.CommandsReportOnlyTheirFaults := by
  intro i s t he
  cases i with
  | encode =>
    by_cases wf : DocWellFormed s
    · exact .inl (status_of_exec he (exec_of_succeeds (.encode wf)))
    · exact .inr (status_of_exec he (exec_encode_of_not_docWellFormed wf))
  | decode mode tx ty =>
    rcases modeOfTag_cases mode with ⟨m, -, rfl⟩ | ⟨-, h8, h16⟩
    · by_cases hbad : (tx = 0 ∨ ty = 0) ∨ s.slen.toNat ≠ packedLength m tx.toNat ty.toNat
      · exact .inr (.inl (status_of_exec he (exec_decode_of_bad_geometry hbad)))
      · obtain ⟨hz, hlen⟩ := not_or.1 hbad
        obtain ⟨hx, hy⟩ := not_or.1 hz
        exact .inl (status_of_exec he (exec_of_succeeds (.decode m tx ty hx hy (not_not.1 hlen))))
    · exact .inr (.inr ⟨status_of_exec he (exec_decode_of_reserved_tag s tx ty h8 h16), h8, h16⟩)
  | write =>
    by_cases wf : DocWellFormed s
    · by_cases hc : tcMax < s.docW.toNat / 8 ∨ tcMax < s.docH.toNat / rowCount s.docMode
      · exact .inr (.inr (status_of_exec he (exec_write_of_count_above_tcMax wf hc)))
      · obtain ⟨hx, hy⟩ := not_or.1 hc
        exact .inl (status_of_exec he (exec_of_succeeds (.write wf (Nat.not_lt.1 hx) (Nat.not_lt.1 hy))))
    · exact .inr (.inl (status_of_exec he (exec_write_of_not_docWellFormed wf)))
  | read =>
    obtain ⟨u, v, hv, hcode⟩ := exec_read_cases s
    rwa [← status_of_exec he hv] at hcode
  | resize w h =>
    by_cases hbad : ¬ DocWellFormed s ∨ ¬ ValidGeometry s.docMode w.toNat h.toNat
    · exact .inr (status_of_exec he (exec_resize_of_bad_geometry hbad))
    · obtain ⟨wf, new⟩ := not_or.1 hbad
      exact .inl (status_of_exec he (exec_of_succeeds (.resize w h (not_not.1 wf) (not_not.1 new))))

/-- Settles O29: STATUS is a field of its own, which no meaning reads and the last write of every meaning replaces. -/
theorem commandsDoNotReadStatus : Obligations.CommandsDoNotReadStatus := by
  intro i s v
  cases i with
  | encode | decode | write | read | resize => rfl

theorem sameHost_of_exec {s t : State} {i : Instr} (he : exec i s = .next t) : SameHost s t := by
  rcases exec_cases i s with ⟨u, hu, hn⟩ | ⟨f, -, hn⟩
  · cases Host.Outcome.next.inj (he.symm.trans hn)
    cases hu with
    | encode | decode | write | read | resize => exact ⟨rfl, rfl, rfl⟩
  · cases Host.Outcome.next.inj (he.symm.trans hn)
    exact ⟨rfl, rfl, rfl⟩

/-- A stream ends where SLEN says: the bytes at and beyond it are the old ones (spec/10_state.md R32). -/
theorem strmByte_storeStream_beyond (s : State) {n : Nat} (f : Nat → Byte) (hn : n ≤ strmCap) {k : Nat}
    (hk : (storeStream s n f).slen.toNat ≤ k) : strmByte (storeStream s n f) k = strmByte s k := by
  rw [storeStream_slen_toNat s f hn] at hk
  rw [strmByte_storeStream, if_neg (Nat.not_lt.2 hk)]

/-- Settles O30: a success writes what `Succeeds` lists, and a fault writes STATUS alone. -/
theorem commandsReachOnlyTheirSpaces : Obligations.CommandsReachOnlyTheirSpaces := by
  intro i s t he
  refine ⟨sameHost_of_exec he, ?_⟩
  have hcap := packed_add_hdrLen_le_strmCap s.docW s.docH
  rcases exec_cases i s with ⟨u, hu, hn⟩ | ⟨f, -, hn⟩
  · cases Host.Outcome.next.inj (he.symm.trans hn)
    cases hu with
    | encode wf =>
      exact ⟨rfl, ⟨fun _ => rfl, rfl, rfl, rfl⟩, fun k hk =>
        strmByte_storeStream_beyond s _ (Nat.le_trans (Nat.le_add_left _ _) hcap) hk⟩
    | write wf hx hy => exact ⟨rfl, ⟨fun _ => rfl, rfl, rfl, rfl⟩, fun k hk => strmByte_storeStream_beyond s _ hcap hk⟩
    | decode | read => exact ⟨rfl, fun _ => rfl, rfl⟩
    | resize => exact ⟨rfl, rfl, fun _ => rfl, rfl⟩
  · cases Host.Outcome.next.inj (he.symm.trans hn)
    cases i with
    | encode | write => exact ⟨rfl, ⟨fun _ => rfl, rfl, rfl, rfl⟩, fun _ _ => rfl⟩
    | decode | read => exact ⟨rfl, fun _ => rfl, rfl⟩
    | resize => exact ⟨rfl, rfl, fun _ => rfl, rfl⟩

/-- A command that replaces the buffer leaves a well-formed document (spec/10_state.md R34 (f)). -/
theorem docWellFormed_of_succeeds {s u : State} {i : Instr} (h : Succeeds s i u) (he : i ≠ .encode) (hw : i ≠ .write) :
    DocWellFormed u := by
  cases h with
  | encode => exact absurd rfl he
  | write => exact absurd rfl hw
  | decode m tx ty hx hy _ =>
    exact docWellFormed_loadDocument s m 0 (BitVec.toNat_pos_of_ne_zero hx) (BitVec.toNat_pos_of_ne_zero hy) tx.isLt ty.isLt
  | read hd _ =>
    obtain ⟨-, -, -, hx, hy⟩ := hd
    exact docWellFormed_loadDocument s _ 8 (BitVec.toNat_pos_of_ne_zero hx) (BitVec.toNat_pos_of_ne_zero hy)
      (strmByte s 6).isLt (strmByte s 7).isLt
  | resize w h wf new => exact new

/-- Settles O32: STATUS 0 means success, and a successful replacement is of a valid geometry (`docWellFormed_of_succeeds`). -/
theorem replacedDocumentIsWellFormed : Obligations.ReplacedDocumentIsWellFormed := by
  intro i s t ⟨hne, hnw⟩ he h0
  obtain ⟨u, hu, rfl⟩ := succeeds_of_status_eq_zero he h0
  have wf : DocWellFormed u := docWellFormed_of_succeeds hu hne hnw
  exact wf

theorem unpackRow_toNat_lt_four (lo hi : Byte) (i : Nat) : (unpackRow lo hi i).toNat < 4 := by
  have h0 := Bool.toNat_le ((unpackRow lo hi i).getLsbD 0)
  have h1 := Bool.toNat_le ((unpackRow lo hi i).getLsbD 1)
  rw [toNat_eq_of_getLsbD_eq_false fun _ => unpackRow_getLsbD_eq_false lo hi i]
  omega

theorem pixCell_loadDocument_lt_four (s : State) (m : TileMode) (tx ty base k : Nat) :
    (pixCell (loadDocument s m tx ty base) k).toNat < 4 := by
  rw [pixCell_loadDocument]
  split
  · exact unpackRow_toNat_lt_four _ _ _
  · decide

/-- Settles O33: every cell of a loaded document is one of an UNPACKROW (`unpackRow_toNat_lt_four`), or there is no such cell. -/
theorem loadedCellsHaveTwoBits : Obligations.LoadedCellsHaveTwoBits := by
  intro i s t hi he h0 k
  obtain ⟨u, hu, rfl⟩ := succeeds_of_status_eq_zero he h0
  cases hu with
  | decode | read => exact pixCell_loadDocument_lt_four _ _ _ _ _ k
  | encode | write | resize => simp at hi

end Sys2Proof.Machine

namespace Sys2Proof.Machine

/-! ## No command reads beyond SLEN (spec/10_state.md section 5) -/

/-- The same document and SLEN, and the same bytes below SLEN: all of the block's state that a command may read. -/
structure AlikeToSlen (s s' : State) : Prop where
  pix : s.pix = s'.pix
  docW : s.docW = s'.docW
  docH : s.docH = s'.docH
  docMode : s.docMode = s'.docMode
  slen : s.slen = s'.slen
  bytes : ∀ k, k < s.slen.toNat → strmByte s k = strmByte s' k

/-- Both answers are next states, alike and with the same STATUS. -/
def AnswersAlike (r r' : Result) : Prop :=
  ∃ t t', r = .next t ∧ r' = .next t' ∧ t.status = t'.status ∧ AlikeToSlen t t'

section Alike

variable {s s' : State}

theorem AlikeToSlen.setStatus (h : AlikeToSlen s s') (v : Byte) : AlikeToSlen (s.setStatus v) (s'.setStatus v) :=
  ⟨h.pix, h.docW, h.docH, h.docMode, h.slen, h.bytes⟩

theorem AlikeToSlen.setBuffer (h : AlikeToSlen s s') (m : Memory) (neww newh : Geom) :
    AlikeToSlen (s.setBuffer m neww newh) (s'.setBuffer m neww newh) :=
  ⟨rfl, rfl, rfl, h.docMode, h.slen, h.bytes⟩

theorem AlikeToSlen.answersAlike (h : AlikeToSlen s s') {r r' : Result} {v : Byte} (hr : r = .next (s.setStatus v))
    (hr' : r' = .next (s'.setStatus v)) : AnswersAlike r r' :=
  ⟨_, _, hr, hr', rfl, h.setStatus v⟩

theorem AlikeToSlen.pixCell_eq (h : AlikeToSlen s s') : pixCell s = pixCell s' := by
  funext k
  rw [pixCell, pixCell, h.pix]

theorem AlikeToSlen.docWellFormed_iff (h : AlikeToSlen s s') : DocWellFormed s ↔ DocWellFormed s' := by
  rw [DocWellFormed, DocWellFormed, h.docW, h.docH, h.docMode]

theorem AlikeToSlen.fileByte_eq (h : AlikeToSlen s s') : fileByte s = fileByte s' := by
  funext k
  simp only [fileByte, h.docW, h.docH, h.docMode, h.pixCell_eq]

theorem AlikeToSlen.storeStream (h : AlikeToSlen s s') (n : Nat) (f : Nat → Byte) :
    AlikeToSlen (storeStream s n f) (storeStream s' n f) := by
  refine ⟨h.pix, h.docW, h.docH, h.docMode, rfl, fun k hk => ?_⟩
  rw [storeStream_slen, BitVec.toNat_ofNat] at hk
  have hn : k < n := hk.trans_le (Nat.mod_le _ _)
  rw [strmByte_storeStream, strmByte_storeStream, if_pos hn, if_pos hn]

/-- DecodeFn reads the packed stream of its tiles and nothing behind it (spec/41_tile_codec.md R122). -/
theorem decodeCell_congr {B B' : Nat → Byte} {tx ty rc : Nat} (hB : ∀ o, o < tx * ty * rc * 2 → B o = B' o) {k : Nat}
    (hk : k < tx * 8 * (ty * rc)) : decodeCell B tx rc k = decodeCell B' tx rc k := by
  obtain ⟨tyi, txi, r, i, hy, hx, hr, hi, rfl⟩ := exists_pixIdx hk
  rw [decodeCell_pixIdx B hx hr hi, decodeCell_pixIdx B' hx hr hi, hB _ (tileOff_lt hy hx hr (by decide)),
    hB _ (tileOff_lt hy hx hr (by decide))]

theorem Memory.tabulate_congr {n : Nat} {f f' : Nat → Byte} (hf : ∀ k, k < n → f k = f' k) :
    Memory.tabulate n f = Memory.tabulate n f' :=
  List.filterMap_congr fun k hk => by rw [hf k (List.mem_range.1 hk)]

theorem AlikeToSlen.loadDocument (h : AlikeToSlen s s') {m : TileMode} {tx ty base : Nat}
    (hlen : base + packedLength m tx ty ≤ s.slen.toNat) :
    AlikeToSlen (loadDocument s m tx ty base) (loadDocument s' m tx ty base) :=
  ⟨Memory.tabulate_congr fun _ hk => decodeCell_congr
      (fun o ho => h.bytes (base + o) ((Nat.add_lt_add_left ho base).trans_le hlen)) hk,
    rfl, rfl, rfl, h.slen, h.bytes⟩

/-! ### Command by command -/

theorem AlikeToSlen.exec_encode (h : AlikeToSlen s s') : AnswersAlike (exec .encode s) (exec .encode s') := by
  by_cases wf : DocWellFormed s
  · have hs' := exec_of_succeeds (.encode (h.docWellFormed_iff.1 wf))
    rw [← h.docW, ← h.docH, ← h.docMode, ← h.pixCell_eq] at hs'
    exact (h.storeStream _ _).answersAlike (exec_of_succeeds (.encode wf)) hs'
  · exact h.answersAlike (exec_encode_of_not_docWellFormed wf)
      (exec_encode_of_not_docWellFormed (h.docWellFormed_iff.not.1 wf))

theorem AlikeToSlen.exec_decode (h : AlikeToSlen s s') (mode tx ty : Byte) :
    AnswersAlike (exec (.decode mode tx ty) s) (exec (.decode mode tx ty) s') := by
  rcases modeOfTag_cases mode with ⟨m, -, rfl⟩ | ⟨-, h8, h16⟩
  · by_cases hbad : (tx = 0 ∨ ty = 0) ∨ s.slen.toNat ≠ packedLength m tx.toNat ty.toNat
    · exact h.answersAlike (exec_decode_of_bad_geometry hbad) (exec_decode_of_bad_geometry (h.slen ▸ hbad))
    · obtain ⟨hz, hlen⟩ := not_or.1 hbad
      obtain ⟨hx, hy⟩ := not_or.1 hz
      have hpacked := not_not.1 hlen
      exact (h.loadDocument (by rw [Nat.zero_add, hpacked])).answersAlike
        (exec_of_succeeds (.decode m tx ty hx hy hpacked)) (exec_of_succeeds (.decode m tx ty hx hy (h.slen ▸ hpacked)))
  · exact h.answersAlike (exec_decode_of_reserved_tag s tx ty h8 h16) (exec_decode_of_reserved_tag s' tx ty h8 h16)

theorem AlikeToSlen.exec_write (h : AlikeToSlen s s') : AnswersAlike (exec .write s) (exec .write s') := by
  by_cases wf : DocWellFormed s
  · have wf' := h.docWellFormed_iff.1 wf
    by_cases hc : tcMax < s.docW.toNat / 8 ∨ tcMax < s.docH.toNat / rowCount s.docMode
    · have hc' := hc
      rw [h.docW, h.docH, h.docMode] at hc'
      exact h.answersAlike (exec_write_of_count_above_tcMax wf hc) (exec_write_of_count_above_tcMax wf' hc')
    · obtain ⟨hx, hy⟩ := not_or.1 hc
      have hs' := exec_of_succeeds (.write wf' (by rw [← h.docW]; exact Nat.not_lt.1 hx)
        (by rw [← h.docH, ← h.docMode]; exact Nat.not_lt.1 hy))
      rw [← h.docW, ← h.docH, ← h.fileByte_eq] at hs'
      exact (h.storeStream _ _).answersAlike (exec_of_succeeds (.write wf (Nat.not_lt.1 hx) (Nat.not_lt.1 hy))) hs'
  · exact h.answersAlike (exec_write_of_not_docWellFormed wf)
      (exec_write_of_not_docWellFormed (h.docWellFormed_iff.not.1 wf))

theorem AlikeToSlen.exec_read (h : AlikeToSlen s s') : AnswersAlike (exec .read s) (exec .read s') := by
  by_cases h8 : 8 ≤ s.slen.toNat
  · have h8' : 8 ≤ s'.slen.toNat := h.slen ▸ h8
    have hhead : ∀ {k}, k < 8 → strmByte s k = strmByte s' k := fun hk => h.bytes _ (hk.trans_le h8)
    have h4 : strmByte s 4 = strmByte s' 4 := hhead (by decide)
    have h5 : strmByte s 5 = strmByte s' 5 := hhead (by decide)
    have h6 : strmByte s 6 = strmByte s' 6 := hhead (by decide)
    have h7 : strmByte s 7 = strmByte s' 7 := hhead (by decide)
    have hmagic : MagicMatches s ↔ MagicMatches s' := by
      rw [MagicMatches, MagicMatches, hhead (k := 0) (by decide), hhead (k := 1) (by decide), hhead (k := 2) (by decide),
        hhead (k := 3) (by decide)]
    by_cases hr : MagicMatches s ∧ strmByte s 4 = 1
    · obtain ⟨hm, hv⟩ := hr
      have hpay : headerPayload s = headerPayload s' := by rw [headerPayload, headerPayload, h5, h6, h7]
      rw [exec_read_of_recognized h8 hm hv, exec_read_of_recognized h8' (hmagic.1 hm) (h4 ▸ hv), ← h5, ← h6, ← h7,
        ← hpay, ← h.slen]
      split_ifs with hz hlen
      · exact h.answersAlike (raise_eq .geometry s) (raise_eq .geometry s')
      · exact h.answersAlike (raise_eq .truncated s) (raise_eq .truncated s')
      · exact (h.loadDocument (Nat.not_lt.1 hlen)).answersAlike (done_eq _) (done_eq _)
    · have hr' : ¬ (MagicMatches s' ∧ strmByte s' 4 = 1) := by rwa [← hmagic, ← h4]
      exact h.answersAlike (exec_read_of_unrecognized h8 (not_and_or.1 hr))
        (exec_read_of_unrecognized h8' (not_and_or.1 hr'))
  · exact h.answersAlike (exec_read_of_short_header (Nat.not_le.1 h8))
      (exec_read_of_short_header (h.slen ▸ Nat.not_le.1 h8))

theorem AlikeToSlen.exec_resize (h : AlikeToSlen s s') (neww newh : Geom) :
    AnswersAlike (exec (.resize neww newh) s) (exec (.resize neww newh) s') := by
  by_cases hbad : ¬ DocWellFormed s ∨ ¬ ValidGeometry s.docMode neww.toNat newh.toNat
  · exact h.answersAlike (exec_resize_of_bad_geometry hbad)
      (exec_resize_of_bad_geometry (by rwa [← h.docWellFormed_iff, ← h.docMode]))
  · obtain ⟨wf, new⟩ := not_or.1 hbad
    have hs' := exec_of_succeeds (.resize neww newh (h.docWellFormed_iff.1 (not_not.1 wf)) (h.docMode ▸ not_not.1 new))
    rw [← h.docW, ← h.docH, ← h.pix] at hs'
    exact (h.setBuffer _ neww newh).answersAlike
      (exec_of_succeeds (.resize neww newh (not_not.1 wf) (not_not.1 new))) hs'

end Alike

/-- Settles O31: alike states answer alike, command by command. -/
theorem commandsReadNoByteBeyondSlen : Obligations.CommandsReadNoByteBeyondSlen := by
  intro i s s' t t' hpix hw hh hm hlen hbytes ht ht'
  have h : AlikeToSlen s s' := ⟨hpix, hw, hh, hm, hlen, hbytes⟩
  have hanswer : AnswersAlike (exec i s) (exec i s') := by
    cases i with
    | encode => exact h.exec_encode
    | decode mode tx ty => exact h.exec_decode mode tx ty
    | write => exact h.exec_write
    | read => exact h.exec_read
    | resize neww newh => exact h.exec_resize neww newh
  obtain ⟨u, u', hu, hu', hstatus, halike⟩ := hanswer
  cases Host.Outcome.next.inj (ht.symm.trans hu)
  cases Host.Outcome.next.inj (ht'.symm.trans hu')
  exact ⟨hstatus, halike.pix, halike.docW, halike.docH, halike.docMode, halike.slen, halike.bytes⟩

end Sys2Proof.Machine

namespace Sys2Proof.Machine

/-! ## What a step can do (spec/44_host_access.md R170, spec/70_reset_and_hazards.md R220) -/

/-- Everything a host action can do to the state: a CMD write runs a command or raises ILLEGAL, a write stores what its target
takes, a read is answered, RESET resets, and any other access is ignored (R178). -/
inductive Performs (s : State) : HostAction → State → Prop where
  | command {w : Word} {i : Instr} {t : State} (dec : decodeWord w = .ok i) (run : exec i s = .next t) : Performs s (.wrReg 0 w) t
  | illegal {w : Word} : Performs s (.wrReg 0 w) (s.setStatus 5)
  | mode (m : TileMode) : Performs s (.wrReg 4 (BitVec.ofNat 32 (rowCount m))) (s.setMode m)
  | length {v : Word} {n : Length} (cap : n.toNat ≤ strmCap) : Performs s (.wrReg 5 v) (s.setSlen n)
  | pixel {k : Nat} {v : Byte} (lt : k < pixCount s) : Performs s (.wrPix k v) (storePix s k v)
  | byte {k : Nat} {v : Byte} (lt : k < strmCap) : Performs s (.wrStrm k v) (storeStrm s k v)
  | reply (a : HostAction) (r : Reply) : Performs s a (s.addReply r)
  | reset : Performs s .reset s.afterReset
  | ignored (a : HostAction) : Performs s a s

theorem exists_issueCommand_eq_next (s : State) (w : Word) : ∃ t, issueCommand s w = .next t := by
  rcases issueCommand_cases s w with ⟨i, -, hi⟩ | ⟨-, hn⟩
  · rcases exec_cases i s with ⟨u, -, hn⟩ | ⟨f, -, hn⟩
    · exact ⟨_, hi.trans hn⟩
    · exact ⟨_, hi.trans hn⟩
  · exact ⟨_, hn⟩

theorem performs_of_issueCommand {s t : State} {w : Word} (h : issueCommand s w = .next t) : Performs s (.wrReg 0 w) t := by
  rcases issueCommand_cases s w with ⟨i, hd, hi⟩ | ⟨-, hn⟩
  · exact .command hd (hi.symm.trans h)
  · cases Host.Outcome.next.inj (h.symm.trans hn)
    exact .illegal

theorem performs_writeReg (s : State) (n : Nat) (v : Word) : Performs s (.wrReg n v) (writeReg s n v) := by
  by_cases h4 : n = 4
  · subst h4
    rw [writeReg_four]
    by_cases h8 : v = 8
    · subst h8; exact .mode .rows8
    by_cases h16 : v = 16
    · subst h16; exact .mode .rows16
    · rw [writeMode_of_ne s h8 h16]; exact .ignored _
  by_cases h5 : n = 5
  · subst h5
    rw [writeReg_five]
    by_cases hv : v.toNat ≤ strmCap
    · rw [writeSlen_of_le s hv]; exact .length ((setWidth_length_toNat hv).trans_le hv)
    · rw [writeSlen_of_gt s (Nat.not_le.1 hv)]; exact .ignored _
  · rw [writeReg_of_ne s v h4 h5]; exact .ignored _

theorem performs_writePix (s : State) (k : Nat) (v : Byte) : Performs s (.wrPix k v) (writePix s k v) := by
  by_cases hk : k < pixCount s
  · rw [writePix_of_lt s v hk]; exact .pixel hk
  · rw [writePix_of_ge s v (Nat.not_lt.1 hk)]; exact .ignored _

theorem performs_writeStrm (s : State) (k : Nat) (v : Byte) : Performs s (.wrStrm k v) (writeStrm s k v) := by
  by_cases hk : k < strmCap
  · rw [writeStrm_of_lt s v hk]; exact .byte hk
  · rw [writeStrm_of_ge s v (Nat.not_lt.1 hk)]; exact .ignored _

/-- Every host action completes, and does one of the things `Performs` lists. -/
theorem exists_performs (s : State) (a : HostAction) : ∃ t, perform s a = .next t ∧ Performs s a t := by
  cases a with
  | rdReg n => exact ⟨_, rfl, .reply _ _⟩
  | wrReg n v =>
    by_cases hn : n = 0
    · subst hn
      obtain ⟨t, ht⟩ := exists_issueCommand_eq_next s v
      exact ⟨t, ht, performs_of_issueCommand ht⟩
    · exact ⟨_, if_neg hn, performs_writeReg s n v⟩
  | rdPix k => exact ⟨_, rfl, .reply _ _⟩
  | wrPix k v => exact ⟨_, rfl, performs_writePix s k v⟩
  | rdStrm k => exact ⟨_, rfl, .reply _ _⟩
  | wrStrm k v => exact ⟨_, rfl, performs_writeStrm s k v⟩
  | reset => exact ⟨_, rfl, .reset⟩

/-- With nothing pending the block waits. -/
theorem step_of_pending_nil {s : State} (h : s.pending = []) : step s = .next s := by simp only [step, h]

/-- Everything a step can do: wait, or perform the host's oldest action. -/
theorem step_cases {s t : State} (h : step s = .next t) :
    (s.pending = [] ∧ t = s) ∨ ∃ a rest, s.pending = a :: rest ∧ Performs (s.setPending rest) a t := by
  cases hp : s.pending with
  | nil => exact .inl ⟨rfl, Host.Outcome.next.inj (h.symm.trans (step_of_pending_nil hp))⟩
  | cons a rest =>
    obtain ⟨u, hu, hperf⟩ := exists_performs (s.setPending rest) a
    cases Host.Outcome.next.inj (h.symm.trans ((step_cons hp).trans hu))
    exact .inr ⟨a, rest, rfl, hperf⟩

/-! ### What an action leaves alone -/

section Performs

variable {s t : State} {a : HostAction}

theorem Performs.pending_eq (h : Performs s a t) : t.pending = s.pending := by
  cases h with
  | command _ run => exact (sameHost_of_exec run).1
  | illegal | mode | length | pixel | byte | reply | reset | ignored => rfl

theorem Performs.status_eq (h : Performs s a t) : t.status = s.status ∨ (∃ w, a = .wrReg 0 w) ∨ a = .reset := by
  cases h with
  | command | illegal => exact .inr (.inl ⟨_, rfl⟩)
  | mode | length | pixel | byte | reply | ignored => exact .inl rfl
  | reset => exact .inr (.inr rfl)

/-- A command that faults, and ENCODE and WRITE, leave the geometry alone (spec/10_state.md R27, R28). -/
theorem geometry_eq_of_exec {i : Instr} (he : exec i s = .next t) :
    (t.docW = s.docW ∧ t.docH = s.docH) ∨ (i ≠ .encode ∧ i ≠ .write ∧ t.status = 0) := by
  rcases exec_cases i s with ⟨u, hu, hn⟩ | ⟨f, -, hn⟩
  · cases Host.Outcome.next.inj (he.symm.trans hn)
    cases hu with
    | encode | write => exact .inl ⟨rfl, rfl⟩
    | decode | read | resize => exact .inr ⟨nofun, nofun, rfl⟩
  · cases Host.Outcome.next.inj (he.symm.trans hn)
    exact .inl ⟨rfl, rfl⟩

theorem Performs.geometry_eq (h : Performs s a t) :
    (t.docW = s.docW ∧ t.docH = s.docH) ∨ a = .reset ∨
      ∃ w i, a = .wrReg 0 w ∧ decodeWord w = .ok i ∧ i ≠ .encode ∧ i ≠ .write ∧ t.status = 0 := by
  cases h with
  | command dec run =>
    rcases geometry_eq_of_exec run with hsame | ⟨hne, hnw, h0⟩
    · exact .inl hsame
    · exact .inr (.inr ⟨_, _, rfl, dec, hne, hnw, h0⟩)
  | illegal | mode | length | pixel | byte | reply | ignored => exact .inl ⟨rfl, rfl⟩
  | reset => exact .inr (.inl rfl)

end Performs

/-! ### The statements on steps -/

/-- Settles O7: a step performs the oldest action (`step_cons`), and a write to REG:0 is a command issue. -/
theorem stepRunsTheDecodedCommand : Obligations.StepRunsTheDecodedCommand := by
  intro s w rest hp
  have hstep : step s = issueCommand (s.setPending rest) w := step_cons hp
  refine ⟨fun i hi => ?_, fun e he => ?_⟩
  · simp only [hstep, issueCommand, hi]
  · simp only [hstep, issueCommand, he]
    exact raise_eq .illegal _

/-- Settles O41: the branch of `step` with nothing pending. -/
theorem idleHostLeavesTheBlockAlone : Obligations.IdleHostLeavesTheBlockAlone := fun _ => step_of_pending_nil

/-- Settles O42: every action completes (`exists_performs`) and leaves the rest of the list as it is. -/
theorem everyStepCompletes : Obligations.EveryStepCompletes := by
  intro s
  cases hp : s.pending with
  | nil => exact ⟨s, step_of_pending_nil hp, hp⟩
  | cons a rest =>
    obtain ⟨t, ht, hperf⟩ := exists_performs (s.setPending rest) a
    exact ⟨t, (step_cons hp).trans ht, hperf.pending_eq⟩

/-- Settles O43: no action but a CMD write and RESET touches STATUS (`Performs.status_eq`). -/
theorem onlyCommandIssueChangesStatus : Obligations.OnlyCommandIssueChangesStatus := by
  intro s t h hne
  rcases step_cases h with ⟨-, rfl⟩ | ⟨a, rest, hp, hperf⟩
  · exact absurd rfl hne
  · rcases hperf.status_eq with heq | ⟨w, rfl⟩ | rfl
    · exact absurd heq hne
    · exact ⟨rest, .inl ⟨w, hp⟩⟩
    · exact ⟨rest, .inr hp⟩

/-- Settles O44: no action but RESET and a successful replacement touches the geometry (`Performs.geometry_eq`). -/
theorem geometryChangesOnlyBySuccessfulReplacement : Obligations.GeometryChangesOnlyBySuccessfulReplacement := by
  intro s t h hne
  rcases step_cases h with ⟨-, rfl⟩ | ⟨a, rest, hp, hperf⟩
  · exact absurd hne (by simp)
  · rcases hperf.geometry_eq with ⟨hw, hh⟩ | rfl | ⟨w, i, rfl, hi⟩
    · exact absurd hne (not_or.2 ⟨not_not.2 hw, not_not.2 hh⟩)
    · exact ⟨rest, .inl hp⟩
    · exact ⟨rest, .inr ⟨w, i, hp, hi⟩⟩

/-! ## Reset (spec/10_state.md section 9) -/

theorem step_reset {s : State} {rest : List HostAction} (hp : s.pending = .reset :: rest) :
    step s = .next (s.setPending rest).afterReset := step_cons hp

/-- Settles O39: each field of `State.afterReset`. -/
theorem resetGivesTheDefaultDocument : Obligations.ResetGivesTheDefaultDocument :=
  fun _ _ hp => ⟨_, step_reset hp, rfl, rfl, fun _ => rfl, nofun, rfl, rfl, rfl, rfl⟩

theorem docWellFormed_afterReset (s : State) : DocWellFormed s.afterReset := by
  rw [DocWellFormed, State.afterReset_docMode, State.afterReset_docW, State.afterReset_docH]
  decide

/-- Settles O40: `State.afterReset` again, whose geometry suits its mode. -/
theorem resetModeIsRowsEight : Obligations.ResetModeIsRowsEight := by
  intro s t rest hp h
  cases Host.Outcome.next.inj (h.symm.trans (step_reset hp))
  exact ⟨rfl, docWellFormed_afterReset _⟩

/-! ## The invariants of every reachable state (spec/10_state.md R34) -/

section Invariants

variable {s : State}

theorem Inv.setPending (inv : Inv s) (l : List HostAction) : Inv (s.setPending l) :=
  { inv with }

theorem Inv.addReply (inv : Inv s) (r : Reply) : Inv (s.addReply r) :=
  { inv with }

theorem Inv.setMode (inv : Inv s) (m : TileMode) : Inv (s.setMode m) :=
  { inv with }

theorem Inv.setStatus (inv : Inv s) {v : Byte} (hv : v.toNat ≤ 5) : Inv (s.setStatus v) :=
  { inv with status_ok := hv }

theorem Inv.setSlen (inv : Inv s) {n : Length} (hn : n.toNat ≤ strmCap) : Inv (s.setSlen n) :=
  { inv with slen_ok := hn }

theorem Inv.storePix (inv : Inv s) {k : Nat} (hk : k < pixCount s) (v : Byte) : Inv (storePix s k v) := by
  rw [storePix_eq]
  split
  · exact { inv with
      pix_wf := Memory.unlist_wf inv.pix_wf k
      pix_exists := fun c hc => inv.pix_exists c (Memory.mem_unlist hc) }
  · next hv =>
    refine { inv with
      pix_wf := Memory.put_wf inv.pix_wf k fun h => hv (Option.some.inj h)
      pix_exists := fun c hc => ?_ }
    rcases Memory.mem_put hc with rfl | hc
    · exact hk
    · exact inv.pix_exists c hc

theorem Inv.storeStrm (inv : Inv s) {k : Nat} (hk : k < strmCap) (v : Byte) : Inv (storeStrm s k v) := by
  refine { inv with
    strm_wf := Memory.put_wf inv.strm_wf k nofun
    strm_exists := fun c hc => ?_ }
  rcases Memory.mem_put hc with rfl | hc
  · exact hk
  · exact inv.strm_exists c hc

theorem Inv.storeStream (inv : Inv s) {n : Nat} (hn : n ≤ strmCap) (f : Nat → Byte) : Inv (storeStream s n f) := by
  refine { inv with
    strm_wf := Memory.overwrite_wf inv.strm_wf n f
    strm_exists := fun c hc => ?_
    slen_ok := (storeStream_slen_toNat s f hn).trans_le hn }
  rcases Memory.mem_overwrite hc with hlt | hc
  · exact hlt.trans_le hn
  · exact inv.strm_exists c hc

/-- Valid geometries of 12 bits: both modes count rows in multiples of 8 (spec/10_state.md R34 (b), (c)). -/
theorem geometry_ok_of_validGeometry {m : TileMode} {w h : Geom} (hg : ValidGeometry m w.toNat h.toNat) :
    (0 < w.toNat ∧ w.toNat % 8 = 0 ∧ w.toNat ≤ 4088) ∧ (0 < h.toNat ∧ h.toNat % 8 = 0 ∧ h.toNat ≤ 4088) := by
  obtain ⟨hw0, hw, hh0, hh⟩ := hg
  have hwlt := w.isLt
  have hhlt := h.isLt
  have hh8 : h.toNat % 8 = 0 := by
    cases m with
    | rows8 => exact hh
    | rows16 => rw [rowCount] at hh; omega
  omega

/-- A command that replaces the buffer by a well-formed document, in canonical form, keeps the invariants. -/
theorem Inv.of_new_document (inv : Inv s) {u : State} (wf : DocWellFormed u) (canonical : Memory.wf pixUnlisted u.pix)
    (cells : NoCellBeyond u) (hstrm : u.strm = s.strm) (hslen : u.slen = s.slen) (hstatus : u.status = s.status) : Inv u :=
  { pix_wf := canonical
    pix_exists := cells
    strm_wf := hstrm ▸ inv.strm_wf
    strm_exists := hstrm ▸ inv.strm_exists
    docW_ok := (geometry_ok_of_validGeometry wf).1
    docH_ok := (geometry_ok_of_validGeometry wf).2
    slen_ok := hslen ▸ inv.slen_ok
    status_ok := hstatus ▸ inv.status_ok }

theorem inv_of_succeeds {i : Instr} {u : State} (inv : Inv s) (h : Succeeds s i u) : Inv u := by
  have hcap := packed_add_hdrLen_le_strmCap s.docW s.docH
  cases h with
  | encode => exact inv.storeStream (Nat.le_trans (Nat.le_add_left _ _) hcap) _
  | decode m tx ty hx hy len =>
    exact inv.of_new_document (docWellFormed_of_succeeds (.decode m tx ty hx hy len) nofun nofun) (Memory.tabulate_wf _ _)
      (noCellBeyond_loadDocument s m 0 tx.isLt ty.isLt) rfl rfl rfl
  | write => exact inv.storeStream hcap _
  | read hd len =>
    exact inv.of_new_document (docWellFormed_of_succeeds (.read hd len) nofun nofun) (Memory.tabulate_wf _ _)
      (noCellBeyond_loadDocument s _ 8 (strmByte s 6).isLt (strmByte s 7).isLt) rfl rfl rfl
  | resize w h wf new =>
    exact inv.of_new_document (docWellFormed_of_succeeds (.resize w h wf new) nofun nofun)
      (relocate_resizePlace_wf inv.pix_wf _ _ _ _) (noCellBeyond_relocate_resizePlace s s.pix _ _ w h) rfl rfl rfl

theorem codeValue_toNat_le (f : Code) : (codeValue f).toNat ≤ 5 := by cases f <;> decide

theorem inv_of_exec {i : Instr} {t : State} (inv : Inv s) (he : exec i s = .next t) : Inv t := by
  rcases exec_cases i s with ⟨u, hu, hn⟩ | ⟨f, -, hn⟩
  · cases Host.Outcome.next.inj (he.symm.trans hn)
    exact (inv_of_succeeds inv hu).setStatus (by decide)
  · cases Host.Outcome.next.inj (he.symm.trans hn)
    exact inv.setStatus (codeValue_toNat_le f)

theorem inv_afterReset (s : State) : Inv s.afterReset where
  pix_wf := Memory.nil_wf _
  pix_exists := nofun
  strm_wf := Memory.nil_wf _
  strm_exists := nofun
  docW_ok := by rw [State.afterReset_docW]; decide
  docH_ok := by rw [State.afterReset_docH]; decide
  slen_ok := by rw [State.afterReset_slen]; decide
  status_ok := by rw [State.afterReset_status]; decide

theorem inv_of_performs {a : HostAction} {t : State} (inv : Inv s) (h : Performs s a t) : Inv t := by
  cases h with
  | command _ run => exact inv_of_exec inv run
  | illegal => exact inv.setStatus (by decide)
  | mode m => exact inv.setMode m
  | length cap => exact inv.setSlen cap
  | pixel lt => exact inv.storePix lt _
  | byte lt => exact inv.storeStrm lt _
  | reply _ r => exact inv.addReply r
  | reset => exact inv_afterReset s
  | ignored => exact inv

/-! ### Well-formedness (spec/10_state.md R33, R34 (f)) -/

theorem docWellFormed_of_exec {i : Instr} {t : State} (wf : DocWellFormed s) (he : exec i s = .next t) : DocWellFormed t := by
  rcases exec_cases i s with ⟨u, hu, hn⟩ | ⟨f, -, hn⟩
  · cases Host.Outcome.next.inj (he.symm.trans hn)
    have hwf : DocWellFormed u := by
      by_cases hkeep : i = .encode ∨ i = .write
      · rcases hkeep with rfl | rfl
        · cases hu; exact wf
        · cases hu; exact wf
      · exact docWellFormed_of_succeeds hu (not_or.1 hkeep).1 (not_or.1 hkeep).2
    exact hwf
  · cases Host.Outcome.next.inj (he.symm.trans hn)
    exact wf

/-- Under the invariants only the height can fail to suit the mode, and only in Rows16. -/
theorem not_docWellFormed_iff (inv : Inv s) : ¬ DocWellFormed s ↔ s.docMode = .rows16 ∧ s.docH.toNat % 16 = 8 := by
  obtain ⟨hw0, hw8, -⟩ := inv.docW_ok
  obtain ⟨hh0, hh8, -⟩ := inv.docH_ok
  cases hm : s.docMode with
  | rows8 => simp [DocWellFormed, ValidGeometry, rowCount, hm, hw0, hw8, hh0, hh8]
  | rows16 =>
    simp only [DocWellFormed, ValidGeometry, rowCount, hm, true_and]
    omega

theorem Performs.mode_write_of_not_docWellFormed {a : HostAction} {t : State} (h : Performs s a t) (inv : Inv s)
    (wf : DocWellFormed s) (hbad : ¬ DocWellFormed t) : a = .wrReg 4 16 ∧ s.docH.toNat % 16 = 8 := by
  cases h with
  | command _ run => exact absurd (docWellFormed_of_exec wf run) hbad
  | mode m =>
    obtain ⟨hm, hh⟩ := (not_docWellFormed_iff (inv.setMode m)).1 hbad
    obtain rfl : m = .rows16 := hm
    exact ⟨rfl, hh⟩
  | reset => exact absurd (docWellFormed_afterReset s) hbad
  | illegal | length | pixel | byte | reply | ignored => exact absurd wf hbad

end Invariants

/-- Settles O45: the reset state is the one that `inv_afterReset` speaks of, but for the model's own count of resets. -/
theorem invariantsHoldAtReset : Obligations.InvariantsHoldAtReset :=
  ⟨{ inv_afterReset State.reset with }, docWellFormed_afterReset State.reset⟩

/-- Settles O46: every action keeps the invariants (`inv_of_performs`), none of which speaks of the host's list. -/
theorem stepKeepsInvariants : Obligations.StepKeepsInvariants := by
  intro s t inv h
  rcases step_cases h with ⟨-, rfl⟩ | ⟨a, rest, -, hperf⟩
  · exact inv
  · exact inv_of_performs (inv.setPending rest) hperf

/-- Settles O47: no action but the write of Rows16 loses well-formedness (`Performs.mode_write_of_not_docWellFormed`). -/
theorem wellFormednessLostOnlyByModeWrite : Obligations.WellFormednessLostOnlyByModeWrite := by
  intro s t inv wf h hbad
  rcases step_cases h with ⟨-, rfl⟩ | ⟨a, rest, hp, hperf⟩
  · exact absurd wf hbad
  · obtain ⟨rfl, hh⟩ := hperf.mode_write_of_not_docWellFormed (inv.setPending rest) wf hbad
    exact ⟨rest, hp, hh⟩

/-- Settles O48: the invariants leave only the height to fail, and only in Rows16 (`not_docWellFormed_iff`). -/
theorem malformedExactlyWhenModeOutrunsHeight : Obligations.MalformedExactlyWhenModeOutrunsHeight :=
  fun _ inv => not_docWellFormed_iff inv

end Sys2Proof.Machine
